-- ==== Sys2Proof/Word.lean ====
section
/-! DEFINITION. The bit-vector types of the block's state elements (00_scope.md R6, R8). All values are unsigned. -/

namespace Sys2Proof

/-- `u8`: a byte of the input stream (R51). -/
abbrev Byte := BitVec 8

/-- `u32`: the channel mask, the word accumulator, a SampleValue, a stored count (R6). -/
abbrev Word := BitVec 32

/-- `u64`: the cursor, a timestamp, a budget, the diagnostic counters (R6). -/
abbrev Time := BitVec 64

/-- Four bits, bit `g` for channel group `g` (R25, R101). -/
abbrev Groups := BitVec 4

end Sys2Proof
end

