-- ==== Sys2Proof/Config.lean ====
section
/-! DEFINITION. The two named parameters of the model (00_scope.md R7). No other parameter exists. -/

namespace Sys2Proof

/-- `GROUP_PLACEMENT` (R7): where the bytes of a SAMPLE word land in the SampleValue. -/
inductive GroupPlacement where
  /-- Byte `i` goes to the `i`-th enabled group (R104): the spec's choice. -/
  | routed
  /-- The word as it stands (R105). -/
  | compact
deriving DecidableEq, Repr

/-- The parameters a model takes as arguments (R7). They are fixed for the machine: no event writes
them (R192, "every element except the parameters"). DESIGN CHOICE (log 4): State carries them. -/
structure Params where
  /-- `TRACE_CAPACITY`: the most records the assembler can hold; `none` is `UNBOUNDED`. -/
  traceCapacity  : Option Nat
  /-- `GROUP_PLACEMENT`. -/
  groupPlacement : GroupPlacement
deriving DecidableEq, Repr

/-- The spec's defaults (R7): `UNBOUNDED` and `ROUTED`. -/
def Params.default : Params where
  traceCapacity  := none
  groupPlacement := .routed

end Sys2Proof
end

