-- ==== Sys2Proof/Syntax.lean ====
section
/-! DEFINITION. The two alphabets the block decodes (30_encoding.md): words on the wire and host events,
one constructor of `Instr` per row of the opcode table (R81). -/

namespace Sys2Proof

/-- One row of the opcode table with its operands. A SAMPLE row carries the word's *wire value*, a RUN row
its *stored count*; both are u32 below `2^(8W-1)` (R75, R79, R142). -/
inductive Instr where
  /-- SAMPLE.W1: a one-byte word with bit 7 clear (R73, R141). -/
  | sampleW1 (v : Word)
  /-- RUN.W1: a one-byte word with bit 7 set (R72, R142). -/
  | runW1 (c : Word)
  /-- SAMPLE.W2: a two-byte word with bit 15 clear. -/
  | sampleW2 (v : Word)
  /-- RUN.W2: a two-byte word with bit 15 set. -/
  | runW2 (c : Word)
  /-- SAMPLE.W3: a three-byte word with bit 23 clear. -/
  | sampleW3 (v : Word)
  /-- RUN.W3: a three-byte word with bit 23 set. -/
  | runW3 (c : Word)
  /-- SAMPLE.W4: a four-byte word with bit 31 clear. -/
  | sampleW4 (v : Word)
  /-- RUN.W4: a four-byte word with bit 31 set. -/
  | runW4 (c : Word)
  /-- RESET, event code 0 (R78, R191). -/
  | reset
  /-- START, event code 1: the ChannelMask and the budget, `none` for `NONE` (R78, R192). -/
  | start (mask : Word) (budget : Option Time)
  /-- BYTE, event code 2: the next byte of the stream (R78, R194). -/
  | byte (b : Byte)
  /-- EOS, event code 3 (R78, R196). -/
  | eos
  /-- CANCEL, event code 4 (R78, R198). -/
  | cancel
deriving DecidableEq, Repr

/-- One event as the host drives it: the 3-bit event code (R78, R81) and the operands beside it.
DESIGN CHOICE (log 3): the spec gives the code but no layout for the operands, so they are lines of their
own; a line the event does not use is ignored. -/
structure HostEvent where
  code   : BitVec 3
  mask   : Word := 0
  budget : Option Time := none
  data   : Byte := 0
deriving DecidableEq, Repr

/-- What is given to the decoder: the bytes of one complete word in the order received (R71), or one event. -/
inductive Encoded where
  | word (bytes : List Byte)
  | event (e : HostEvent)
deriving DecidableEq, Repr

end Sys2Proof
end

