-- ==== Sys2Proof/Machine/State.lean ====
section
/-! DEFINITION. The block's whole state (10_state.md R20), its reset value (R36), and the reasons a step or a
readout can stop. -/

namespace Sys2Proof.Machine

/-- The two terminal statuses that publish the Trace (R173, R239). -/
inductive DoneStatus where
  /-- `DONE_EOS`, code 2. -/
  | eos
  /-- `DONE_BUDGET`, code 3. -/
  | budget
deriving DecidableEq, Repr

/-- The six error statuses (R230, R239). -/
inductive ErrorStatus where
  /-- `ERR_CONFIGURATION`, code 8 (R231). -/
  | configuration
  /-- `ERR_CORRUPT_STREAM`, code 9 (R233). -/
  | corruptStream
  /-- `ERR_PROTOCOL`, code 10 (R234). -/
  | protocol
  /-- `ERR_CANCELLED`, code 11 (R235). -/
  | cancelled
  /-- `ERR_CURSOR_OVERFLOW`, code 12 (R237). -/
  | cursorOverflow
  /-- `ERR_CAPACITY`, code 13 (R238). -/
  | capacity
deriving DecidableEq, Repr

/-- The block's phase and outcome (R23, R239). The codes no rule produces are left out of the type (log 14). -/
inductive Status where
  /-- `IDLE`, code 0. -/
  | idle
  /-- `DECODING`, code 1. -/
  | decoding
  | done (d : DoneStatus)
  | error (e : ErrorStatus)
deriving DecidableEq, Repr

/-- A transition record: a SampleValue and the time its level begins (R30). -/
structure Record where
  value : Word
  time  : Time
deriving DecidableEq, Repr

/-- The state vector of R20, then the parameters (R7, log 4) and the host's queue (log 1). -/
structure State where
  /-- `status` (R23). -/
  status        : Status
  /-- `cfg_mask` (R24). -/
  cfgMask       : Word
  /-- `cfg_groups` (R25). -/
  cfgGroups     : Groups
  /-- `cfg_width`, 0..4 (R25). -/
  cfgWidth      : Fin 5
  /-- `cfg_budget`; `none` is `NONE` (R27). -/
  cfgBudget     : Option Time
  /-- `wa_acc` (R26). -/
  waAcc         : Word
  /-- `wa_count`, 0..3 (R26). -/
  waCount       : Fin 4
  /-- `last_valid` (R28). -/
  lastValid     : Bool
  /-- `last_value` (R28). -/
  lastValue     : Word
  /-- `cursor` (R29). -/
  cursor        : Time
  /-- The trace buffer, record 0 first; its length is `rec_count` (R30, log 8). -/
  trace         : List Record
  /-- `cancel_pending` (R31). -/
  cancelPending : Bool
  /-- `bytes_consumed` (R34). -/
  bytesConsumed : Time
  /-- `err_cursor` (R35). -/
  errCursor     : Time
  /-- `TRACE_CAPACITY` and `GROUP_PLACEMENT` (R7): no step changes them (log 4). -/
  params        : Params
  /-- The events the host has offered and the block has not taken, oldest first. The model's own field (log 1). -/
  inbox         : List HostEvent
deriving DecidableEq, Repr

/-- `rec_count` (R30): "It is built from one buffer of pairs" (R170). -/
def State.recCount (s : State) : Nat := s.trace.length

/-- Why a step stops with a fault. -/
inductive Fault where
  /-- A meaning of a SAMPLE.Wn or RUN.Wn row raises it in a DECODING session whose `cfg_width` is not `n`:
  every word of a session has `cfg_width` bytes (R56, R70), so no such word exists. Safe: the model stops where
  the spec gives no effect (log 7). -/
  | wordNotOfSessionWidth
deriving DecidableEq, Repr

/-- Why a step or a readout is refused. -/
inductive Refusal where
  /-- An arm of `exec` that has no meaning yet raises it. Safe. -/
  | notModelled (mnemonic : String)
  /-- `step` raises it on an event code 5 to 7: "A model refuses any other event" (R78). Safe. -/
  | noSuchEvent (code : BitVec 3)
  /-- A readout of `REC_COUNT` or `REC(i)` raises it while no Trace is published (R54, R173, R205). Safe. -/
  | traceNotPublished
  /-- A readout of `REC(i)` with `i ≥ rec_count` raises it (R54, R205). Safe. -/
  | noSuchRecord (i : Nat)
deriving DecidableEq, Repr

/-- The state after RESET and at power-on: every element as the table of R36 gives it (R260), the parameters at
the spec's defaults (R7), and nothing offered by the host (log 1). -/
def State.reset : State where
  status        := .idle
  cfgMask       := 0#32
  cfgGroups     := 0#4
  cfgWidth      := 0
  cfgBudget     := none
  waAcc         := 0#32
  waCount       := 0
  lastValid     := false
  lastValue     := 0#32
  cursor        := 0#64
  trace         := []
  cancelPending := false
  bytesConsumed := 0#64
  errCursor     := 0#64
  params        := Params.default
  inbox         := []

end Sys2Proof.Machine
end

