-- ==== Sys2Proof/Machine/Flags.lean ====
section
/-! DEFINITION. The conditions the rules test and the three status outputs. The block has no condition-code
register (R32); the RUN flag is `runFlag` of Decode.lean and `last_valid` is a field of State. -/

namespace Sys2Proof.Machine

/-- The 4-bit code of a status (R239). -/
def Status.code : Status → BitVec 4
  | .idle                  => 0#4
  | .decoding              => 1#4
  | .done .eos             => 2#4
  | .done .budget          => 3#4
  | .error .configuration  => 8#4
  | .error .corruptStream  => 9#4
  | .error .protocol       => 10#4
  | .error .cancelled      => 11#4
  | .error .cursorOverflow => 12#4
  | .error .capacity       => 13#4

/-- The status of a code; `none` for 4 to 7, 14 and 15, which no rule produces (R239). -/
def Status.ofCode (c : BitVec 4) : Option Status :=
  match c with
  | 0#4  => some .idle
  | 1#4  => some .decoding
  | 2#4  => some (.done .eos)
  | 3#4  => some (.done .budget)
  | 8#4  => some (.error .configuration)
  | 9#4  => some (.error .corruptStream)
  | 10#4 => some (.error .protocol)
  | 11#4 => some (.error .cancelled)
  | 12#4 => some (.error .cursorOverflow)
  | 13#4 => some (.error .capacity)
  | _    => none

/-- `busy = (status = DECODING)` (R33). -/
def State.busy (s : State) : Bool := s.status == .decoding

/-- `trace_valid = (status ∈ {DONE_EOS, DONE_BUDGET})` (R33, R173). -/
def State.traceValid (s : State) : Bool :=
  match s.status with
  | .done _  => true
  | .idle | .decoding | .error _ => false

/-- `error` = status is one of the six error codes (R33). -/
def State.error (s : State) : Bool :=
  match s.status with
  | .error _ => true
  | .idle | .decoding | .done _ => false

/-- A finite `TRACE_CAPACITY` is already full (R141, R172). -/
def State.traceFull (s : State) : Bool :=
  match s.params.traceCapacity with
  | none   => false
  | some n => s.recCount == n

/-- `cfg_budget ≠ NONE and cursor ≥ cfg_budget` (R146, R192). -/
def State.budgetReached (s : State) : Bool :=
  match s.cfgBudget with
  | none   => false
  | some B => B.toNat ≤ s.cursor.toNat

/-- The cursor a RUN word of stored count `c` leads to, exact (R142: `zext_65(cursor) + zext_65(c) + 1`). -/
def State.cursorAfter (s : State) (c : Word) : Nat := s.cursor.toNat + c.toNat + 1

end Sys2Proof.Machine
end

