-- ==== Sys2Proof/WellFormed.lean ====
section
/-! DEFINITION. Which instruction terms an encoding exists for: the payload of a word of width `W` has
`8W-1` bits (R72, R79: "legal only if V < 2^(8W-1)", "legal only if c < 2^(8W-1)"). Every operand of an
event is legal (R24: "All 2^32 values are accepted"). -/

namespace Sys2Proof

/-- The payload fits in the `8n-1` bits a word of `n` bytes has below its flag (R71). -/
abbrev PayloadFits (n : Nat) (p : Word) : Prop := p.toNat < 2 ^ (8 * n - 1)

/-- The term stands for a row of the opcode table with operands the row can encode. -/
abbrev WellFormed : Instr → Prop
  | .sampleW1 v => PayloadFits 1 v
  | .runW1 c    => PayloadFits 1 c
  | .sampleW2 v => PayloadFits 2 v
  | .runW2 c    => PayloadFits 2 c
  | .sampleW3 v => PayloadFits 3 v
  | .runW3 c    => PayloadFits 3 c
  | .sampleW4 v => PayloadFits 4 v
  | .runW4 c    => PayloadFits 4 c
  | .reset      => True
  | .start _ _  => True
  | .byte _     => True
  | .eos        => True
  | .cancel     => True

end Sys2Proof
end

