-- ==== Sys2Proof/Decode.lean ====
section
/-! DEFINITION. The decoder, the encoder, and the bit-field and byte-order helpers they and the framer use
(30_encoding.md, 41_framer.md). -/

namespace Sys2Proof

/-! ### Bit fields and byte order -/

/-- `w[k-1:0]`, zero-extended (R8). -/
def lowBits (k : Nat) (w : Word) : Word := w &&& ((1#32 <<< k) - 1#32)

/-- Lane `i` of a word: bits `8i+7:8i` (R55, R103). -/
def byteAt (i : Nat) (w : Word) : Byte := (w >>> (8 * i)).setWidth 8

/-- `b` placed in lane `i` of an otherwise zero word: `zext_32(b) << 8i` (R120). -/
def inLane (i : Nat) (b : Byte) : Word := b.setWidth 32 <<< (8 * i)

/-- `Σ byte[j] << 8j`, the first byte received in the low bits (R55, R71). The lanes are disjoint, so the
sum is written as a bitwise OR (log 15). -/
def wireWord : List Byte → Word
  | []      => 0#32
  | b :: bs => inLane 0 b ||| (wireWord bs <<< 8)

/-- The `n` bytes of a word, in the order they are sent (R71). -/
def wordBytes (n : Nat) (w : Word) : List Byte := (List.range n).map (byteAt · w)

/-- The RUN flag `F = word[8W-1]` of a word of `n` bytes (R122). -/
def runFlag (n : Nat) (word : Word) : Bool := word.getLsbD (8 * n - 1)

/-- The payload with the flag masked off, `word[8W-2:0]` (R123). -/
def runPayload (n : Nat) (word : Word) : Word := lowBits (8 * n - 1) word

/-! ### Decoding -/

/-- Why nothing is decoded. -/
inductive DecodeError where
  /-- A word has 1 to 4 bytes (R70). -/
  | wordLength (n : Nat)
  /-- "No other event code exists" (R78): codes 5 to 7. -/
  | eventCode (code : BitVec 3)
deriving DecidableEq, Repr

/-- The row a word of `n` bytes belongs to: RUN iff its flag is set (R74, R81). -/
def decodeWordValue (n : Nat) (word : Word) : Except DecodeError Instr :=
  match n with
  | 1 => .ok (if runFlag 1 word then .runW1 (runPayload 1 word) else .sampleW1 word)
  | 2 => .ok (if runFlag 2 word then .runW2 (runPayload 2 word) else .sampleW2 word)
  | 3 => .ok (if runFlag 3 word then .runW3 (runPayload 3 word) else .sampleW3 word)
  | 4 => .ok (if runFlag 4 word then .runW4 (runPayload 4 word) else .sampleW4 word)
  | n => .error (.wordLength n)

/-- A complete word from its bytes: "A decoder tells a word's length from `W` alone" (R70). -/
def decodeWord (bytes : List Byte) : Except DecodeError Instr :=
  decodeWordValue bytes.length (wireWord bytes)

/-- An event from its code (R78). Codes 5 to 7 are rejected by name. -/
def decodeEvent (e : HostEvent) : Except DecodeError Instr :=
  match e.code with
  | 0#3 => .ok .reset
  | 1#3 => .ok (.start e.mask e.budget)
  | 2#3 => .ok (.byte e.data)
  | 3#3 => .ok .eos
  | 4#3 => .ok .cancel
  | c   => .error (.eventCode c)

/-- The decoder: total on both alphabets. -/
def decode : Encoded → Except DecodeError Instr
  | .word bytes => decodeWord bytes
  | .event e    => decodeEvent e

/-! ### Encoding -/

/-- A RUN word: the count with the flag bit `8W-1` set, `c | 2^(8W-1)` (R79). -/
def runWordOf (n : Nat) (c : Word) : Word := c ||| (1#32 <<< (8 * n - 1))

/-- The bytes or the event of an instruction (R71, R78, R79). -/
def encode : Instr → Encoded
  | .sampleW1 v => .word (wordBytes 1 v)
  | .runW1 c    => .word (wordBytes 1 (runWordOf 1 c))
  | .sampleW2 v => .word (wordBytes 2 v)
  | .runW2 c    => .word (wordBytes 2 (runWordOf 2 c))
  | .sampleW3 v => .word (wordBytes 3 v)
  | .runW3 c    => .word (wordBytes 3 (runWordOf 3 c))
  | .sampleW4 v => .word (wordBytes 4 v)
  | .runW4 c    => .word (wordBytes 4 (runWordOf 4 c))
  | .reset      => .event { code := 0#3 }
  | .start m b  => .event { code := 1#3, mask := m, budget := b }
  | .byte b     => .event { code := 2#3, data := b }
  | .eos        => .event { code := 3#3 }
  | .cancel     => .event { code := 4#3 }

/-- The event that carries one byte of the stream. -/
def byteEvent (b : Byte) : HostEvent := { code := 2#3, data := b }

/-! ### The host's probe -/

/-- The bits of a table row as they stand on the interface. DESIGN CHOICE (log 9): the table numbers two
separate spaces from bit 0. The event rows have 3 bits, one byte when rounded up, and the one-byte words have
8, so eight bits that hold an event code (0 to 4) are read as that event, with operands of zeros, and any
other whole number of bytes as a word, its first byte in the low bits. -/
def tableUnit (nbits w : Nat) : Encoded :=
  if nbits ≤ 3 ∨ (nbits = 8 ∧ w ≤ 4) then .event { code := BitVec.ofNat 3 w }
  else .word ((List.range (nbits / 8)).map fun i => BitVec.ofNat 8 (w / 2 ^ (8 * i)))

/-- The instruction the decoder reads from the bits of a table row; `none` where it refuses. -/
def decodeTableWord (nbits w : Nat) : Option Instr := (decode (tableUnit nbits w)).toOption

end Sys2Proof
end

