-- ==== Sys2Proof/Machine/Router.lean ====
section
/-! DEFINITION. The channel-group byte-width router (40_router.md): a pure function of the mask and of
`GROUP_PLACEMENT` (R109). -/

namespace Sys2Proof.Machine

/-- Group `g` is enabled: any of mask bits `8g+7:8g` is set (R100). -/
def groupEnabled (mask : Word) (g : Nat) : Bool := byteAt g mask != 0#8

/-- The enabled set, bit `g` for group `g` (R101). -/
def groups (mask : Word) : Groups :=
  BitVec.ofBoolListLE [groupEnabled mask 0, groupEnabled mask 1, groupEnabled mask 2, groupEnabled mask 3]

/-- The number of set bits (R8, R102). -/
def popcount (G : Groups) : Nat := (List.range 4).countP fun g => G.getLsbD g

/-- A set of four groups has at most four members, so the width is in 0..4 without a clamp (R102, R110). -/
theorem popcount_lt (G : Groups) : popcount G < 5 :=
  Nat.lt_succ_of_le (List.countP_le_length (l := List.range 4))

/-- The sample width `popcount(groups(mask))` (R102). -/
def width (mask : Word) : Fin 5 := ⟨popcount (groups mask), popcount_lt _⟩

/-- The enabled groups in ascending order: entry `i` is `lane(i)` (R103). -/
def lanes (G : Groups) : List Nat := (List.range 4).filter fun g => G.getLsbD g

/-- The lane map; `none` at and beyond `W` (R103). -/
def lane (G : Groups) (i : Nat) : Option Nat := (lanes G)[i]?

/-- Lanes `i`, `i+1`, … of `word` to the groups listed (R104). The groups differ, so the sum is written as a
bitwise OR (log 15). -/
def routeFrom : List Nat → Nat → Word → Word
  | [],      _, _    => 0#32
  | g :: gs, i, word => inLane g (byteAt i word) ||| routeFrom gs (i + 1) word

/-- The router's byte placement under either value of `GROUP_PLACEMENT` (R104, R105). -/
def place (p : GroupPlacement) (G : Groups) (word : Word) : Word :=
  match p with
  | .routed  => routeFrom (lanes G) 0 word
  | .compact => word

/-- The SampleValue bit the RUN flag would land on; `none` when no group is enabled (R106, R107). -/
def topBit (p : GroupPlacement) (G : Groups) : Option Nat :=
  match p with
  | .routed  => (lane G (popcount G - 1)).map fun g => 8 * g + 7
  | .compact => if popcount G = 0 then none else some (8 * popcount G - 1)

end Sys2Proof.Machine
end

