-- ==== Sys2Proof/Machine/Operands.lean ====
section
/-! DEFINITION. Operand assembly and classification of a complete word (30_encoding.md R75, 41_framer.md
R122 to R125). -/

namespace Sys2Proof.Machine

/-- A word's class with its payload: "exactly one interpretation per word" (R125). -/
inductive WordClass where
  | run (c : Word)
  | sample (v : Word)
deriving DecidableEq, Repr

/-- The SampleValue of a word: `place(word) & cfg_mask` (R124). -/
def sampleValue (s : State) (word : Word) : Word :=
  place s.params.groupPlacement s.cfgGroups word &&& s.cfgMask

/-- The total classifier (R125): by the flag alone. -/
def classify (s : State) (n : Nat) (word : Word) : WordClass :=
  if runFlag n word then .run (runPayload n word) else .sample (sampleValue s word)

/-- `acc' = wa_acc | (zext_32(b) << 8*wa_count)` (R120). -/
def accumulate (s : State) (b : Byte) : Word := s.waAcc ||| inLane s.waCount.val b

end Sys2Proof.Machine
end

