-- ==== Sys2Proof/Machine/Ops.lean ====
section
/-! DEFINITION. The named operations the meanings share. The writes of one step are read in program order: a
later line of a rule sees what an earlier line wrote (log 5). -/

namespace Sys2Proof.Machine

/-! ### Entering an error, and finishing -/

/-- `raise E()` (R236): the ONE way into an error status. The caller ends the event's processing with it. -/
def raise (e : ErrorStatus) (s : State) : State :=
  { s with status := .error e, errCursor := s.cursor, cancelPending := false }

/-- `finish(S)` (R174): publishes the buffer as it stands. -/
def finish (d : DoneStatus) (s : State) : State := { s with status := .done d }

/-! ### The trace buffer -/

/-- `TraceWrite(rec_count, v, cursor)` and `rec_count <- rec_count + 1` (R53, R171): the only write. -/
def appendRecord (v : Word) (s : State) : State := { s with trace := s.trace ++ [⟨v, s.cursor⟩] }

/-- `TraceRead(i)` (R54): defined only when the Trace is published and `i < rec_count`. -/
def traceRead (i : Nat) (s : State) : Except Refusal Record :=
  if s.traceValid then
    match s.trace[i]? with
    | some r => .ok r
    | none   => .error (.noSuchRecord i)
  else .error .traceNotPublished

/-! ### The word operations -/

/-- Where an operation leaves its step: `ended` after a `raise` ("No later line of the rule runs", R9). -/
inductive Progress where
  | going (s : State)
  | ended (s : State)
deriving DecidableEq, Repr

/-- Go on with the rest of the rule unless an error was raised. -/
def Progress.andThen (p : Progress) (k : State → State) : State :=
  match p with
  | .going s => k s
  | .ended s => s

/-- `SampleOp(v)` (R141). -/
def sampleOp (v : Word) (s : State) : Progress :=
  if s.traceFull then .ended (raise .capacity s)
  else .going { appendRecord v s with lastValid := true, lastValue := v }

/-- `RunOp(c)` (R142, R145). -/
def runOp (c : Word) (s : State) : Progress :=
  if s.lastValid = false then .ended (raise .protocol s)
  else if 2 ^ 64 ≤ s.cursorAfter c then .ended (raise .cursorOverflow s)
  else .going { s with cursor := BitVec.ofNat 64 (s.cursorAfter c) }

/-- `BoundaryCheck()` (R146): the cancel, then the budget. -/
def boundaryCheck (s : State) : State :=
  if s.cancelPending then raise .cancelled s
  else if s.budgetReached then finish .budget s
  else s

/-- A classified word through the decoder: its operation, then the boundary check (R151). -/
def processClass (w : WordClass) (s : State) : State :=
  match w with
  | .sample v => (sampleOp v s).andThen boundaryCheck
  | .run c    => (runOp c s).andThen boundaryCheck

/-- `ProcessWord(word)` for a word of `n` bytes (R151). -/
def processWord (n : Nat) (word : Word) (s : State) : State := processClass (classify s n word) s

/-- What a word row does (log 6, log 7): a word is processed only while DECODING (R140), in a session of its
width (R70). Outside DECODING its bytes are ignored (R195), so nothing changes. -/
def inSessionOfWidth (n : Nat) (k : State → State) (s : State) : Host.Outcome State Fault Refusal :=
  if s.status = .decoding then
    if s.cfgWidth.val = n then .next (k s) else .fault .wordNotOfSessionWidth
  else .next s

/-! ### The framer -/

/-- The byte counts, and is kept: the word is not yet complete (R121, first branch; R194). -/
def keepByte (b : Byte) (s : State) : State :=
  { s with
    bytesConsumed := s.bytesConsumed + 1#64
    waAcc         := accumulate s b
    waCount       := Fin.ofNat 4 (s.waCount.val + 1) }

/-- The byte counts, and completes the word: the assembly state is cleared (R121, second branch; R194). -/
def closeWord (s : State) : State :=
  { s with bytesConsumed := s.bytesConsumed + 1#64, waAcc := 0#32, waCount := 0 }

/-- The word a final byte completes: `acc'[8W-1:0]` (R121). -/
def completedWord (b : Byte) (s : State) : Word := lowBits (8 * s.cfgWidth.val) (accumulate s b)

/-- One byte through the unpacker and, if it is a word's last, through the decoder (R120, R121, R194). -/
def takeByte (b : Byte) (s : State) : State :=
  if s.waCount.val + 1 < s.cfgWidth.val then keepByte b s
  else processWord s.cfgWidth.val (completedWord b s) (closeWord s)

/-! ### Session start -/

/-- Every session element at its reset value and the configuration loaded (R192, R261). -/
def loadSession (m : Word) (B : Option Time) (s : State) : State :=
  { s with
    cfgMask       := m
    cfgGroups     := groups m
    cfgWidth      := width m
    cfgBudget     := B
    waAcc         := 0#32
    waCount       := 0
    lastValid     := false
    lastValue     := 0#32
    cursor        := 0#64
    trace         := []
    cancelPending := false
    bytesConsumed := 0#64
    errCursor     := 0#64 }

/-- The rest of START after the elements are set (R192): the configuration error, then DECODING, then the
budget of 0. -/
def openSession (s : State) : State :=
  if s.cfgWidth.val = 0 then raise .configuration s
  else
    let s' := { s with status := .decoding }
    if s'.budgetReached then finish .budget s' else s'

end Sys2Proof.Machine
end

