-- ==== Sys2Proof/Machine/Control.lean ====
section
/-! DEFINITION. The meanings of the five host events (44_control.md R190 to R199). An ignored event changes no
state at all (R190). -/

namespace Sys2Proof.Machine

/-- RESET (R191): every state element to its value of R36, in every status. The parameters (R7) are not state
and the host's queue is not the block's, so both stay. -/
def execReset (s : State) : Host.Outcome State Fault Refusal :=
  .next { State.reset with params := s.params, inbox := s.inbox }

/-- START(m, B): a new session in any status but DECODING (R192); ignored in DECODING (R193). -/
def execStart (m : Word) (B : Option Time) (s : State) : Host.Outcome State Fault Refusal :=
  if s.status = .decoding then .next s else .next (openSession (loadSession m B s))

/-- BYTE(b) in DECODING (R194); ignored elsewhere (R195). -/
def execByte (b : Byte) (s : State) : Host.Outcome State Fault Refusal :=
  if s.status = .decoding then .next (takeByte b s) else .next s

/-- EOS in DECODING (R196, R127): normal at a word boundary, corrupt inside a word; ignored elsewhere (R197). -/
def execEos (s : State) : Host.Outcome State Fault Refusal :=
  if s.status = .decoding then
    if s.waCount.val = 0 then .next (finish .eos s) else .next (raise .corruptStream s)
  else .next s

/-- CANCEL in DECODING (R198): observed at once at a word boundary, latched inside a word; ignored elsewhere
(R199). -/
def execCancel (s : State) : Host.Outcome State Fault Refusal :=
  if s.status = .decoding then
    if s.waCount.val = 0 then .next (raise .cancelled s) else .next { s with cancelPending := true }
  else .next s

end Sys2Proof.Machine
end

