-- ==== Sys2Proof/Machine/Run.lean ====
section
/-! DEFINITION. The meanings of RUN.W1 to RUN.W4 (42_decoder.md R142, R146, R151): `c` is the stored count,
neither masked nor placed (R123). -/

namespace Sys2Proof.Machine

/-- A RUN word of stored count `c` through the decoder (R151). -/
def decodeRun (c : Word) (s : State) : State := processClass (.run c) s

/-- RUN.W1 (R142). -/
def execRunW1 (c : Word) (s : State) : Host.Outcome State Fault Refusal :=
  inSessionOfWidth 1 (decodeRun c) s

/-- RUN.W2 (R142). -/
def execRunW2 (c : Word) (s : State) : Host.Outcome State Fault Refusal :=
  inSessionOfWidth 2 (decodeRun c) s

/-- RUN.W3 (R142). -/
def execRunW3 (c : Word) (s : State) : Host.Outcome State Fault Refusal :=
  inSessionOfWidth 3 (decodeRun c) s

/-- RUN.W4 (R142). -/
def execRunW4 (c : Word) (s : State) : Host.Outcome State Fault Refusal :=
  inSessionOfWidth 4 (decodeRun c) s

end Sys2Proof.Machine
end

