-- ==== Sys2Proof/Machine/Sample.lean ====
section
/-! DEFINITION. The meanings of SAMPLE.W1 to SAMPLE.W4 (42_decoder.md R141, R146, R151): `v` is the word's wire
value, so the level is `place(v) & cfg_mask` (R124). -/

namespace Sys2Proof.Machine

/-- A SAMPLE word of wire value `v` through the decoder (R151). -/
def decodeSample (v : Word) (s : State) : State := processClass (.sample (sampleValue s v)) s

/-- SAMPLE.W1 (R141). -/
def execSampleW1 (v : Word) (s : State) : Host.Outcome State Fault Refusal :=
  inSessionOfWidth 1 (decodeSample v) s

/-- SAMPLE.W2 (R141). -/
def execSampleW2 (v : Word) (s : State) : Host.Outcome State Fault Refusal :=
  inSessionOfWidth 2 (decodeSample v) s

/-- SAMPLE.W3 (R141). -/
def execSampleW3 (v : Word) (s : State) : Host.Outcome State Fault Refusal :=
  inSessionOfWidth 3 (decodeSample v) s

/-- SAMPLE.W4 (R141). -/
def execSampleW4 (v : Word) (s : State) : Host.Outcome State Fault Refusal :=
  inSessionOfWidth 4 (decodeSample v) s

end Sys2Proof.Machine
end

