-- ==== Sys2Proof/Machine/Dispatch.lean ====
section
/-! DEFINITION. One arm per row of the opcode table (R81, R190). -/

namespace Sys2Proof.Machine

def exec (i : Instr) (s : State) : Host.Outcome State Fault Refusal :=
  match i with
  | .sampleW1 v => Sys2Proof.Machine.execSampleW1 v s
  | .runW1 c => Sys2Proof.Machine.execRunW1 c s
  | .sampleW2 v => Sys2Proof.Machine.execSampleW2 v s
  | .runW2 c => Sys2Proof.Machine.execRunW2 c s
  | .sampleW3 v => Sys2Proof.Machine.execSampleW3 v s
  | .runW3 c => Sys2Proof.Machine.execRunW3 c s
  | .sampleW4 v => Sys2Proof.Machine.execSampleW4 v s
  | .runW4 c => Sys2Proof.Machine.execRunW4 c s
  | .reset => Sys2Proof.Machine.execReset s
  | .start m b => Sys2Proof.Machine.execStart m b s
  | .byte b => Sys2Proof.Machine.execByte b s
  | .eos => Sys2Proof.Machine.execEos s
  | .cancel => Sys2Proof.Machine.execCancel s

end Sys2Proof.Machine
end

