-- ==== Sys2Proof/Machine/Fetch.lean ====
section
/-! DEFINITION. How the block gets its next event (20_memory.md R51, R60; 44_control.md R190), and how a table
row is placed so that the next step runs it. -/

namespace Sys2Proof.Machine

/-- The oldest offered event and the state with it taken; `none` while the host is silent (R60, R203). -/
def nextEvent (s : State) : Option (HostEvent × State) :=
  match s.inbox with
  | []      => none
  | e :: es => some (e, { s with inbox := es })

/-- Offer an event before all others. -/
def offer (e : HostEvent) (s : State) : State := { s with inbox := e :: s.inbox }

/-- The mask with all of groups 0 to `n-1` enabled: a session of width `n` in which both placements agree (R108). -/
def prefixMask (n : Nat) : Word := lowBits (8 * n) (BitVec.allOnes 32)

/-- A DECODING session of width `n`: the one that runs, if it has that width, else one that START opens with
`prefixMask n` and no budget (log 10). -/
def sessionOfWidth (n : Nat) (s : State) : State :=
  if s.status = .decoding ∧ s.cfgWidth.val = n then s
  else { loadSession (prefixMask n) none s with status := .decoding }

/-- The session with all bytes of a word but the last received (R26, R34). -/
def receive (init : List Byte) (s : State) : State :=
  { s with
    waAcc         := wireWord init
    waCount       := Fin.ofNat 4 init.length
    bytesConsumed := s.bytesConsumed + BitVec.ofNat 64 init.length }

/-- Place one encoded unit where the next step takes it: an event at the head of the queue; of a word, the last
byte at the head of the queue and the others in the unpacker of a session of that width (log 10). -/
def placeUnit (u : Encoded) (s : State) : State :=
  match u with
  | .event e    => offer e s
  | .word bytes =>
    match bytes.getLast? with
    | none      => s
    | some last => offer (byteEvent last) (receive bytes.dropLast (sessionOfWidth bytes.length s))

end Sys2Proof.Machine
end

