-- ==== Sys2Proof/Machine/Step.lean ====
section
/-! DEFINITION. One atomic step per host event (R3, R58, R60). -/

namespace Sys2Proof.Machine

/-- Take the oldest offered event and run it. With none offered the block waits and keeps its state (R249,
log 11). An event code that does not exist is refused and not taken (R78, log 13). -/
def step (s : State) : Host.Outcome State Fault Refusal :=
  match nextEvent s with
  | none         => .next s
  | some (e, s') =>
    match decodeEvent e with
    | .ok i    => exec i s'
    | .error _ => .refused (.noSuchEvent e.code)

/-- The state in which the very next step runs the table row whose bits are `w` (log 2, log 9, log 10). -/
def State.withFetchWord (s : State) (nbits w : Nat) : State := placeUnit (tableUnit nbits w) s

end Sys2Proof.Machine
end

