-- ==== Sys2Proof/Machine/Readout.lean ====
section
/-! DEFINITION. The host's readouts (44_control.md R205). Reading is not an event and changes no state (R3), so a
readout is a function of the state. What is not listed in R205 (`wa_acc`, `wa_count`, `last_valid`,
`last_value`, `cancel_pending`) is no readout and has no name here. -/

namespace Sys2Proof.Machine

/-- The names of the table of R205. -/
inductive Readout where
  | status | busy | traceValid | error
  | mask | groups | width | budget
  | cursor | bytesConsumed | errCursor
  | recCount
  | record (i : Nat)
deriving DecidableEq, Repr

/-- What a readout gives. -/
inductive ReadValue where
  | code (c : BitVec 4)
  | flag (b : Bool)
  | mask (m : Word)
  | groups (g : Groups)
  | width (w : Fin 5)
  | budget (b : Option Time)
  | count (t : Time)
  | records (n : Nat)
  | record (r : Record)
deriving DecidableEq, Repr

/-- The value of a readout, or the refusal where R205 gives it none. -/
def readout (q : Readout) (s : State) : Except Refusal ReadValue :=
  match q with
  | .status        => .ok (.code s.status.code)
  | .busy          => .ok (.flag s.busy)
  | .traceValid    => .ok (.flag s.traceValid)
  | .error         => .ok (.flag s.error)
  | .mask          => .ok (.mask s.cfgMask)
  | .groups        => .ok (.groups s.cfgGroups)
  | .width         => .ok (.width s.cfgWidth)
  | .budget        => .ok (.budget s.cfgBudget)
  | .cursor        => .ok (.count s.cursor)
  | .bytesConsumed => .ok (.count s.bytesConsumed)
  | .errCursor     => .ok (.count s.errCursor)
  | .recCount      => if s.traceValid then .ok (.records s.recCount) else .error .traceNotPublished
  | .record i      => (traceRead i s).map .record

end Sys2Proof.Machine
end

