-- ==== Sys2Proof/Machine/Stream.lean ====
section
/-! DEFINITION. The stream items of R79 and the pseudo-instructions of R80, as the events they stand for in a
session of width `n`. An illegal item stands for no events. -/

namespace Sys2Proof.Machine

/-- One item of the stream language (R79, R80). -/
inductive StreamItem where
  | start (mask : Word) (budget : Option Time)
  /-- `S 0xV`: a SAMPLE word of wire value `v`. -/
  | sample (v : Nat)
  /-- `R c`: a RUN word of stored count `c`. -/
  | run (c : Nat)
  /-- `B 0xhh ...`: raw bytes. -/
  | bytes (bs : List Byte)
  | eos
  | cancel
  | reset
  /-- `HOLD d`. -/
  | hold (d : Nat)
  /-- `LEVEL 0xV, d`. -/
  | level (v d : Nat)
deriving DecidableEq, Repr

/-- `M = 2^(8W-1)`: the largest duration of one RUN word, and one more than the largest payload (R72, R80). -/
def payloadLimit (n : Nat) : Nat := 2 ^ (8 * n - 1)

/-- The stored counts `HOLD d` expands to (R80): `q` copies of `M-1`, then `(d-1) - q*M`. -/
def holdCounts (n d : Nat) : List Nat :=
  let q := (d - 1) / payloadLimit n
  List.replicate q (payloadLimit n - 1) ++ [(d - 1) - q * payloadLimit n]

/-- The bytes of `S 0xV`; illegal unless `V < 2^(8W-1)` (R79). -/
def sampleBytes (n v : Nat) : Option (List Byte) :=
  if v < payloadLimit n then some (wordBytes n (BitVec.ofNat 32 v)) else none

/-- The bytes of `R c`; illegal unless `c < 2^(8W-1)` (R79). -/
def runBytes (n c : Nat) : Option (List Byte) :=
  if c < payloadLimit n then some (wordBytes n (runWordOf n (BitVec.ofNat 32 c))) else none

/-- The bytes of several RUN words in order. -/
def runsBytes (n : Nat) (cs : List Nat) : Option (List Byte) := (cs.mapM (runBytes n)).map List.flatten

/-- The bytes of `HOLD d`; "`HOLD 0` is illegal" (R80). -/
def holdBytes (n d : Nat) : Option (List Byte) := if d = 0 then none else runsBytes n (holdCounts n d)

/-- The bytes of `LEVEL 0xV, d`: `S 0xV` then `HOLD d` (R80). -/
def levelBytes (n v d : Nat) : Option (List Byte) := do
  let a ← sampleBytes n v
  let b ← holdBytes n d
  return a ++ b

/-- The events of an item, one BYTE event per byte (R79). -/
def StreamItem.events (n : Nat) : StreamItem → Option (List HostEvent)
  | .start m b => some [{ code := 1#3, mask := m, budget := b }]
  | .sample v  => (sampleBytes n v).map (·.map byteEvent)
  | .run c     => (runBytes n c).map (·.map byteEvent)
  | .bytes bs  => some (bs.map byteEvent)
  | .eos       => some [{ code := 3#3 }]
  | .cancel    => some [{ code := 4#3 }]
  | .reset     => some [{ code := 0#3 }]
  | .hold d    => (holdBytes n d).map (·.map byteEvent)
  | .level v d => (levelBytes n v d).map (·.map byteEvent)

end Sys2Proof.Machine
end

