-- ==== Sys2Proof/Safety.lean ====
section
/-! DEFINITION. The terms the statements use: the rows by width, the invariants of R37 with what makes them
inductive, the phase graph of R201, and delivering a list of instructions. -/

namespace Sys2Proof.Machine

/-! ### Rows by width -/

/-- The SAMPLE row of width `n` (R81). -/
def sampleRow : Nat → Option (Word → Instr)
  | 1 => some .sampleW1
  | 2 => some .sampleW2
  | 3 => some .sampleW3
  | 4 => some .sampleW4
  | _ => none

/-- The RUN row of width `n` (R81). -/
def runRow : Nat → Option (Word → Instr)
  | 1 => some .runW1
  | 2 => some .runW2
  | 3 => some .runW3
  | 4 => some .runW4
  | _ => none

/-! ### Running -/

/-- Run instructions one after another; stop at the first that does not answer a next state. -/
def execAll : List Instr → State → Host.Outcome State Fault Refusal
  | [],      s => .next s
  | i :: is, s =>
    match exec i s with
    | .next t    => execAll is t
    | .fault f   => .fault f
    | .refused r => .refused r

/-- Offer events to the block and step once for each. -/
def deliver (es : List HostEvent) (s : State) : Host.Outcome State Fault Refusal :=
  Host.Core.run Sys2Proof.core es.length { s with inbox := es }

/-! ### What a word still owes -/

/-- The next byte completes a word (R121). -/
abbrev State.lastByteNext (s : State) : Prop := s.waCount.val + 1 = s.cfgWidth.val

/-- Bits of `wa_acc` at or above `8*wa_count` are 0 (R26). -/
abbrev State.partialWordClean (s : State) : Prop := s.waAcc.toNat < 2 ^ (8 * s.waCount.val)

/-- `bytes_consumed mod cfg_width = wa_count` while DECODING (R37 item 8). -/
abbrev State.byteAligned (s : State) : Prop :=
  s.status = .decoding → s.bytesConsumed.toNat % s.cfgWidth.val = s.waCount.val

/-! ### The invariant -/

/-- The invariants of R37 items 1 to 7, with the facts of R25, R26, R28, R30, R35 and R240 that make them
inductive. -/
structure BlockInv (s : State) : Prop where
  /-- `cfg_groups` and `cfg_width` are the router's outputs for `cfg_mask` (R25). -/
  routed          : s.cfgGroups = groups s.cfgMask ∧ s.cfgWidth = width s.cfgMask
  /-- Item 1. -/
  session         : s.status = .decoding → 1 ≤ s.cfgWidth.val ∧ s.waCount.val < s.cfgWidth.val
  /-- Item 2. -/
  cancelMidWord   : s.cancelPending = true → s.status = .decoding ∧ 0 < s.waCount.val
  /-- Item 3: timestamps are non-decreasing. -/
  timesSorted     : s.trace.Pairwise fun r r' => r.time.toNat ≤ r'.time.toNat
  /-- Item 3: the first timestamp is 0. -/
  firstAtZero     : ∀ r, s.trace.head? = some r → r.time = 0#64
  /-- Item 4. -/
  timesPast       : ∀ r ∈ s.trace, r.time.toNat ≤ s.cursor.toNat
  /-- Item 5. -/
  tagMatchesTrace : s.lastValid = true ↔ 0 < s.recCount
  /-- Item 6. -/
  budgetAhead     : s.status = .decoding → ∀ B, s.cfgBudget = some B → s.cursor.toNat < B.toNat
  /-- Item 7: no bit outside the mask. -/
  valuesMasked    : ∀ r ∈ s.trace, r.value &&& ~~~s.cfgMask = 0#32
  /-- Item 7: the top channel is 0. -/
  topChannelClear : ∀ r ∈ s.trace, ∀ t, topBit s.params.groupPlacement s.cfgGroups = some t → r.value.getLsbD t = false
  /-- `rec_count` never exceeds `TRACE_CAPACITY` (R30). -/
  withinCapacity  : ∀ n, s.params.traceCapacity = some n → s.recCount ≤ n
  /-- The part-received word (R26). -/
  partialClean    : s.partialWordClean
  /-- Before the first SAMPLE word the last value and the cursor are 0 (R28; R240: "`last_valid = 0` implies
  `cursor = 0`"). -/
  beforeFirst     : s.lastValid = false → s.lastValue = 0#32 ∧ s.cursor = 0#64
  /-- Before the first SAMPLE word only the bytes of the current word were consumed (R234). -/
  firstWord       : s.status = .decoding → s.lastValid = false → s.bytesConsumed.toNat = s.waCount.val
  /-- `err_cursor` is 0 until an error is entered (R35). -/
  noErrorYet      : s.error = false → s.errCursor = 0#64

/-! ### The phase graph -/

/-- The word a final byte completes is RUN, and its stored count (R122, R123). -/
abbrev runCountNext (s : State) (b : Byte) : Word := runPayload s.cfgWidth.val (accumulate s b)

/-- The RUN word that `b` completes takes effect: a level is set and the cursor does not overflow (R142). -/
abbrev runTakesEffect (s : State) (b : Byte) : Prop :=
  s.lastValid = true ∧ s.cursor.toNat + (runCountNext s b).toNat + 1 < 2 ^ 64

/-- The possible changes of `status`, one constructor per row of the table of R201. The class of a word is read
from the top bit of its final byte (R122). -/
inductive PhaseChange (s : State) : Instr → Status → Prop where
  | reset : PhaseChange s .reset .idle
  | startZeroMask (B : Option Time) (out : s.status ≠ .decoding) :
      PhaseChange s (.start 0#32 B) (.error .configuration)
  | startZeroBudget (m : Word) (out : s.status ≠ .decoding) (mask : m ≠ 0#32) :
      PhaseChange s (.start m (some 0#64)) (.done .budget)
  | startSession (m : Word) (B : Option Time) (out : s.status ≠ .decoding) (mask : m ≠ 0#32) (budget : B ≠ some 0#64) :
      PhaseChange s (.start m B) .decoding
  | traceFull (b : Byte) (run : s.status = .decoding) (final : s.lastByteNext) (flag : b.getLsbD 7 = false)
      (full : s.params.traceCapacity = some s.recCount) : PhaseChange s (.byte b) (.error .capacity)
  | runFirst (b : Byte) (run : s.status = .decoding) (final : s.lastByteNext) (flag : b.getLsbD 7 = true)
      (unset : s.lastValid = false) : PhaseChange s (.byte b) (.error .protocol)
  | runOverflows (b : Byte) (run : s.status = .decoding) (final : s.lastByteNext) (flag : b.getLsbD 7 = true)
      (valid : s.lastValid = true) (overflow : 2 ^ 64 ≤ s.cursor.toNat + (runCountNext s b).toNat + 1) :
      PhaseChange s (.byte b) (.error .cursorOverflow)
  | cancelAfterSample (b : Byte) (run : s.status = .decoding) (final : s.lastByteNext) (flag : b.getLsbD 7 = false)
      (room : s.params.traceCapacity ≠ some s.recCount) (pending : s.cancelPending = true) :
      PhaseChange s (.byte b) (.error .cancelled)
  | cancelAfterRun (b : Byte) (run : s.status = .decoding) (final : s.lastByteNext) (flag : b.getLsbD 7 = true)
      (effect : runTakesEffect s b) (pending : s.cancelPending = true) : PhaseChange s (.byte b) (.error .cancelled)
  | budgetReached (b : Byte) (B : Time) (run : s.status = .decoding) (final : s.lastByteNext) (flag : b.getLsbD 7 = true)
      (effect : runTakesEffect s b) (pending : s.cancelPending = false) (limit : s.cfgBudget = some B)
      (reached : B.toNat ≤ s.cursor.toNat + (runCountNext s b).toNat + 1) : PhaseChange s (.byte b) (.done .budget)
  | eosAtBoundary (run : s.status = .decoding) (boundary : s.waCount.val = 0) : PhaseChange s .eos (.done .eos)
  | eosMidWord (run : s.status = .decoding) (inside : 0 < s.waCount.val) : PhaseChange s .eos (.error .corruptStream)
  | cancelAtBoundary (run : s.status = .decoding) (boundary : s.waCount.val = 0) :
      PhaseChange s .cancel (.error .cancelled)

/-! ### Levels -/

/-- The records of a list of levels (wire value, duration) from time `t` on, `f` giving a word's SampleValue
(R150: a record begins where the durations before it end). -/
def levelTrace (f : Word → Word) : Nat → List (Nat × Nat) → List Record
  | _, []            => []
  | t, (v, d) :: ls => ⟨f (BitVec.ofNat 32 v), BitVec.ofNat 64 t⟩ :: levelTrace f (t + d) ls

/-- The summed durations of a list of levels. -/
def totalDuration (ls : List (Nat × Nat)) : Nat := (ls.map Prod.snd).sum

/-- The row is one of the five host events (R78). -/
abbrev isEvent (i : Instr) : Prop := ∃ e, encode i = .event e

end Sys2Proof.Machine
end

