-- ==== Sys2Proof/Certificates/Slice0/Obligations.lean ====
section
/-! DEFINITION. The statements about the block, one Prop each. Where a statement gives the next state as an
update of the state before, every element it does not name is unchanged (its frame); `params` and `inbox` are
the model's own carriers (log 1, log 4) and are never written by an instruction. -/

open Sys2Proof Sys2Proof.Machine

/-! ### Reset -/

/-- R36: the value of every state element after RESET and at power-on. -/
def Obligations.ResetStateIsTheTable : Prop :=
  State.reset.status = .idle ∧ State.reset.status.code = 0#4 ∧
  State.reset.cfgMask = 0#32 ∧ State.reset.cfgGroups = 0#4 ∧ State.reset.cfgWidth.val = 0 ∧
  State.reset.cfgBudget = none ∧ State.reset.waAcc = 0#32 ∧ State.reset.waCount.val = 0 ∧
  State.reset.lastValid = false ∧ State.reset.lastValue = 0#32 ∧ State.reset.cursor = 0#64 ∧
  State.reset.recCount = 0 ∧ State.reset.cancelPending = false ∧ State.reset.bytesConsumed = 0#64 ∧
  State.reset.errCursor = 0#64

/-- R191: RESET sets every element to its value of R36, in every status. -/
def Obligations.ResetEventRestoresEveryElement : Prop :=
  ∀ s : State, ∃ t, exec .reset s = .next t ∧
    t.status = .idle ∧ t.cfgMask = 0#32 ∧ t.cfgGroups = 0#4 ∧ t.cfgWidth.val = 0 ∧ t.cfgBudget = none ∧ t.waAcc = 0#32 ∧
    t.waCount.val = 0 ∧ t.lastValid = false ∧ t.lastValue = 0#32 ∧ t.cursor = 0#64 ∧ t.trace = [] ∧ t.recCount = 0 ∧
    t.cancelPending = false ∧ t.bytesConsumed = 0#64 ∧ t.errCursor = 0#64

/-! ### Encoding -/

/-- Decoding an encoded well-formed instruction gives it back, with every operand (R71 to R75, R78, R79; the
operand lines of an event are the model's, log 3). -/
def Obligations.DecodeOfEncodeIsTheInstruction : Prop :=
  ∀ i : Instr, WellFormed i → decode (encode i) = .ok i

/-- R76 (derived in the spec): every word of 1 to 4 bytes is legal and stands for one well-formed row, which
encodes to those bytes; no other number of bytes is a word (R70). -/
def Obligations.EveryWordHasOneRow : Prop :=
  ∀ bs : List Byte,
    (1 ≤ bs.length → bs.length ≤ 4 → ∃ i, decode (.word bs) = .ok i ∧ WellFormed i ∧ encode i = .word bs) ∧
    (bs.length = 0 ∨ 4 < bs.length → decode (.word bs) = .error (.wordLength bs.length))

/-- R81: the two rows of a width, told apart by the flag bit, and the event rows, by the 3-bit code. -/
def Obligations.OpcodeTableRowsByMaskAndMatch : Prop :=
  (∀ (n : Nat) (word : Word), 1 ≤ n → n ≤ 4 → word.toNat < 2 ^ (8 * n) →
    ((word &&& (1#32 <<< (8 * n - 1)) = 1#32 <<< (8 * n - 1)) ↔
      ∃ row c, runRow n = some row ∧ decode (.word (wordBytes n word)) = .ok (row c)) ∧
    ((word &&& (1#32 <<< (8 * n - 1)) = 0#32) ↔
      ∃ row v, sampleRow n = some row ∧ decode (.word (wordBytes n word)) = .ok (row v))) ∧
  (∀ e : HostEvent,
    (decodeEvent e = .ok .reset ↔ e.code = 0#3) ∧
    ((∃ m B, decodeEvent e = .ok (.start m B)) ↔ e.code = 1#3) ∧
    ((∃ b, decodeEvent e = .ok (.byte b)) ↔ e.code = 2#3) ∧
    (decodeEvent e = .ok .eos ↔ e.code = 3#3) ∧
    (decodeEvent e = .ok .cancel ↔ e.code = 4#3))

/-- R55, R122: byte `i` received is bits `8i+7:8i`, and the RUN flag is bit 7 of the byte received last. -/
def Obligations.WordsAreLittleEndian : Prop :=
  ∀ (bs : List Byte) (last : Byte), bs.length ≤ 3 →
    (∀ i b, (bs ++ [last])[i]? = some b → byteAt i (wireWord (bs ++ [last])) = b) ∧
    (wireWord (bs ++ [last])).toNat < 2 ^ (8 * (bs.length + 1)) ∧
    runFlag (bs.length + 1) (wireWord (bs ++ [last])) = (last &&& 0x80#8 != 0#8)

/-- Words written out from R71, R72 and the rows of the opcode table (values of R128 and of 95_test_vectors.md
L2.2): a sanity check. -/
def Obligations.DecodedWordsOfTheSpec : Prop :=
  decode (.word [0x2A#8]) = .ok (.sampleW1 0x2A#32) ∧ decode (.word [0xFF#8]) = .ok (.runW1 0x7F#32) ∧
  decode (.word [0x80#8, 0x00#8]) = .ok (.sampleW2 0x0080#32) ∧ decode (.word [0x00#8, 0x80#8]) = .ok (.runW2 0#32) ∧
  decode (.word [0xFF#8, 0xFF#8, 0x7F#8]) = .ok (.sampleW3 0x7FFFFF#32) ∧
  decode (.word [0x01#8, 0x02#8, 0x83#8]) = .ok (.runW3 0x030201#32) ∧
  decode (.word [0x78#8, 0x56#8, 0x34#8, 0x12#8]) = .ok (.sampleW4 0x12345678#32) ∧
  decode (.word [0xEF#8, 0xBE#8, 0xAD#8, 0xDE#8]) = .ok (.runW4 0x5EADBEEF#32) ∧
  decode (.event { code := 2#3, data := 0x55#8 }) = .ok (.byte 0x55#8) ∧
  decode (.event { code := 1#3, mask := 0xFF#32 }) = .ok (.start 0xFF#32 none) ∧
  decode (.event { code := 7#3 }) = .error (.eventCode 7#3)

/-- R78: the five event codes; no other code is an event, and a step refuses it. -/
def Obligations.HostEventCodes : Prop :=
  (∀ (m : Word) (B : Option Time) (b : Byte),
    decodeEvent ⟨0#3, m, B, b⟩ = .ok .reset ∧ decodeEvent ⟨1#3, m, B, b⟩ = .ok (.start m B) ∧
    decodeEvent ⟨2#3, m, B, b⟩ = .ok (.byte b) ∧ decodeEvent ⟨3#3, m, B, b⟩ = .ok .eos ∧
    decodeEvent ⟨4#3, m, B, b⟩ = .ok .cancel) ∧
  (∀ (s : State) (e : HostEvent) (es : List HostEvent), 5 ≤ e.code.toNat → s.inbox = e :: es →
    step s = .refused (.noSuchEvent e.code))

/-! ### The router -/

/-- R100, R101, R102: bit `g` of the enabled set says that group `g` has a set mask bit; the width counts those
groups, is in 0..4, and is 0 only for the zero mask; START writes both, and the zero mask is a configuration error. -/
def Obligations.GroupsAndWidthOfAMask : Prop :=
  ∀ mask : Word,
    (∀ g, g < 4 → ((groups mask).getLsbD g = true ↔ ∃ k, k < 8 ∧ mask.getLsbD (8 * g + k) = true)) ∧
    (width mask).val = ((List.range 4).filter fun g => (groups mask).getLsbD g).length ∧
    (width mask).val ≤ 4 ∧ ((width mask).val = 0 ↔ mask = 0#32) ∧
    (∀ (s : State) (B : Option Time), s.status ≠ .decoding →
      ∃ t, exec (.start mask B) s = .next t ∧ t.cfgGroups = groups mask ∧ t.cfgWidth = width mask ∧
        (t.status = .error .configuration ↔ mask = 0#32))

/-- R103: the lane map lists the enabled groups, all of them, in ascending order. -/
def Obligations.LaneMapIsAscending : Prop :=
  ∀ G : Groups,
    (∀ i, (∃ g, lane G i = some g) ↔ i < popcount G) ∧
    (∀ g, (∃ i, lane G i = some g) ↔ g < 4 ∧ G.getLsbD g = true) ∧
    (∀ i j g h, i < j → lane G i = some g → lane G j = some h → g < h)

/-- R104, R105: ROUTED puts byte `i` of the word at its group's bit positions and leaves the other groups 0;
COMPACT is the word as it stands, so a group at or above `W` never receives data. -/
def Obligations.PlacementOfAWord : Prop :=
  ∀ (G : Groups) (word : Word), word.toNat < 2 ^ (8 * popcount G) →
    (∀ i g k, lane G i = some g → k < 8 → (place .routed G word).getLsbD (8 * g + k) = word.getLsbD (8 * i + k)) ∧
    (∀ g k, g < 4 → k < 8 → G.getLsbD g = false → (place .routed G word).getLsbD (8 * g + k) = false) ∧
    place .compact G word = word ∧
    (∀ g k, popcount G ≤ g → k < 8 → (place .compact G word).getLsbD (8 * g + k) = false)

/-- R108 (derived in the spec): for the enabled sets {0..W-1} both placements are the identity. -/
def Obligations.PlacementsAgreeOnLowGroups : Prop :=
  ∀ (G : Groups) (word : Word), G ∈ [0b0001#4, 0b0011#4, 0b0111#4, 0b1111#4] → word.toNat < 2 ^ (8 * popcount G) →
    place .routed G word = word ∧ place .compact G word = word

/-- R106 (derived in the spec): in a SampleValue the top channel reads 0 under either placement, and so does every
bit outside the mask (R124). -/
def Obligations.TopChannelReadsZero : Prop :=
  ∀ (p : GroupPlacement) (mask word : Word), word.toNat < 2 ^ (8 * (width mask).val) →
    runFlag (width mask).val word = false →
    (∀ t, topBit p (groups mask) = some t → (place p (groups mask) word &&& mask).getLsbD t = false) ∧
    (place p (groups mask) word &&& mask) &&& ~~~mask = 0#32

/-- R107 (derived in the spec): the complete router table. -/
def Obligations.CompleteRouterTable : Prop :=
  [(0b0000#4, 0, [], none, none), (0b0001#4, 1, [0], some 7, some 7), (0b0010#4, 1, [1], some 15, some 7),
   (0b0011#4, 2, [0, 1], some 15, some 15), (0b0100#4, 1, [2], some 23, some 7), (0b0101#4, 2, [0, 2], some 23, some 15),
   (0b0110#4, 2, [1, 2], some 23, some 15), (0b0111#4, 3, [0, 1, 2], some 23, some 23)].all
     (fun (G, W, ls, r, c) => popcount G == W && lanes G == ls && topBit .routed G == r && topBit .compact G == c) = true ∧
  [(0b1000#4, 1, [3], some 31, some 7), (0b1001#4, 2, [0, 3], some 31, some 15), (0b1010#4, 2, [1, 3], some 31, some 15),
   (0b1011#4, 3, [0, 1, 3], some 31, some 23), (0b1100#4, 2, [2, 3], some 31, some 15),
   (0b1101#4, 3, [0, 2, 3], some 31, some 23), (0b1110#4, 3, [1, 2, 3], some 31, some 23),
   (0b1111#4, 4, [0, 1, 2, 3], some 31, some 31)].all
     (fun (G, W, ls, r, c) => popcount G == W && lanes G == ls && topBit .routed G == r && topBit .compact G == c) = true

/-! ### Words through the decoder -/

/-- R141: a SAMPLE word of the session's width appends `(v, cursor)`, sets the last level and does not move the
cursor; a full buffer raises ERR_CAPACITY and nothing is written. With a cancel pending or the budget reached the
boundary check follows: `BoundaryCheckAfterAWord`. -/
def Obligations.SampleWordAppendsARecord : Prop :=
  ∀ (n : Nat) (row : Word → Instr) (w : Word) (s : State), sampleRow n = some row →
    s.status = .decoding → s.cfgWidth.val = n →
    let v := place s.params.groupPlacement s.cfgGroups w &&& s.cfgMask
    (s.params.traceCapacity = some s.recCount →
      exec (row w) s = .next { s with status := .error .capacity, errCursor := s.cursor, cancelPending := false }) ∧
    (s.params.traceCapacity ≠ some s.recCount → s.cancelPending = false →
      (∀ B, s.cfgBudget = some B → s.cursor.toNat < B.toNat) →
      exec (row w) s = .next { s with trace := s.trace ++ [⟨v, s.cursor⟩], lastValid := true, lastValue := v })

/-- R142: a RUN word of the session's width advances the cursor by `c + 1` and writes no record; before any SAMPLE
word it raises ERR_PROTOCOL, and past 2^64 ERR_CURSOR_OVERFLOW, with the cursor unchanged. With a cancel pending or
the budget reached the boundary check follows: `BoundaryCheckAfterAWord`. -/
def Obligations.RunWordAdvancesTheCursor : Prop :=
  ∀ (n : Nat) (row : Word → Instr) (c : Word) (s : State), runRow n = some row →
    s.status = .decoding → s.cfgWidth.val = n →
    (s.lastValid = false →
      exec (row c) s = .next { s with status := .error .protocol, errCursor := s.cursor, cancelPending := false }) ∧
    (s.lastValid = true → 2 ^ 64 ≤ s.cursor.toNat + c.toNat + 1 →
      exec (row c) s =
        .next { s with status := .error .cursorOverflow, errCursor := s.cursor, cancelPending := false }) ∧
    (s.lastValid = true → s.cursor.toNat + c.toNat + 1 < 2 ^ 64 → s.cancelPending = false →
      (∀ B, s.cfgBudget = some B → s.cursor.toNat + c.toNat + 1 < B.toNat) →
      exec (row c) s = .next { s with cursor := BitVec.ofNat 64 (s.cursor.toNat + c.toNat + 1) })

/-- R146: after a word's own operation a pending cancel is taken first, then a reached budget, else nothing. -/
def Obligations.BoundaryCheckAfterAWord : Prop :=
  ∀ (n : Nat) (w : Word) (s : State), s.status = .decoding → s.cfgWidth.val = n →
    let check (t : State) : State :=
      if t.cancelPending then { t with status := .error .cancelled, errCursor := t.cursor, cancelPending := false }
      else match t.cfgBudget with
        | none   => t
        | some B => if B.toNat ≤ t.cursor.toNat then { t with status := .done .budget } else t
    let v := place s.params.groupPlacement s.cfgGroups w &&& s.cfgMask
    (∀ row, sampleRow n = some row → s.params.traceCapacity ≠ some s.recCount →
      exec (row w) s =
        .next (check { s with trace := s.trace ++ [⟨v, s.cursor⟩], lastValid := true, lastValue := v })) ∧
    (∀ row, runRow n = some row → s.lastValid = true → s.cursor.toNat + w.toNat + 1 < 2 ^ 64 →
      exec (row w) s = .next (check { s with cursor := BitVec.ofNat 64 (s.cursor.toNat + w.toNat + 1) }))

/-- The model's choices (log 6, log 7): a word row outside DECODING changes nothing, since its bytes are ignored
(R195), and in a session of another width it stops by name, since no such word exists (R56, R70). -/
def Obligations.WordRowOutsideItsSession : Prop :=
  ∀ (n : Nat) (row : Word → Instr) (w : Word) (s : State), sampleRow n = some row ∨ runRow n = some row →
    (s.status ≠ .decoding → exec (row w) s = .next s) ∧
    (s.status = .decoding → s.cfgWidth.val ≠ n → exec (row w) s = .fault .wordNotOfSessionWidth)

/-- R143 (derived in the spec): RUN words after a SAMPLE word advance the cursor by the sum of their durations and
write no record. -/
def Obligations.ConsecutiveRunsSum : Prop :=
  ∀ (n : Nat) (row : Word → Instr) (cs : List Word) (s : State), runRow n = some row →
    s.status = .decoding → s.cfgWidth.val = n → s.lastValid = true → s.cancelPending = false →
    s.cursor.toNat + (cs.map fun c => c.toNat + 1).sum < 2 ^ 64 →
    (∀ B, s.cfgBudget = some B → s.cursor.toNat + (cs.map fun c => c.toNat + 1).sum < B.toNat) →
    execAll (cs.map row) s =
      .next { s with cursor := BitVec.ofNat 64 (s.cursor.toNat + (cs.map fun c => c.toNat + 1).sum) }

/-! ### The framer -/

/-- R120, R121, R194: every byte counts. One that does not complete a word is placed in lane `wa_count`, and nothing
else happens; the one that completes it clears the assembly state and runs the row its word decodes to (R151), in the
same step. -/
def Obligations.ByteIsKeptOrRunsItsWord : Prop :=
  ∀ (b : Byte) (s : State), s.status = .decoding →
    (s.waCount.val + 1 < s.cfgWidth.val →
      ∃ t, exec (.byte b) s = .next t ∧ t.waCount.val = s.waCount.val + 1 ∧
        t = { s with
          bytesConsumed := s.bytesConsumed + 1#64
          waAcc         := s.waAcc ||| (b.setWidth 32 <<< (8 * s.waCount.val))
          waCount       := t.waCount }) ∧
    (s.lastByteNext → s.partialWordClean →
      ∃ i, decode (.word (wordBytes s.waCount.val s.waAcc ++ [b])) = .ok i ∧
        exec (.byte b) s = exec i { s with bytesConsumed := s.bytesConsumed + 1#64, waAcc := 0#32, waCount := 0 } ∧
        ∃ t, exec (.byte b) s = .next t)

/-- R52, R58 (the first derived in the spec): the W bytes of a word, one BYTE event each from a word boundary, have
the effect of its row, and all W are counted. -/
def Obligations.BytesOfAWordRunItsRow : Prop :=
  ∀ (bs : List Byte) (i : Instr) (s : State), s.status = .decoding → s.waCount.val = 0 → s.waAcc = 0#32 →
    bs.length = s.cfgWidth.val → decode (.word bs) = .ok i →
    execAll (bs.map .byte) s = exec i { s with bytesConsumed := s.bytesConsumed + BitVec.ofNat 64 bs.length }

/-! ### Host events -/

/-- R192: START outside DECODING sets every element; the zero mask is ERR_CONFIGURATION, a budget of 0 ends at once
in DONE_BUDGET, and any other START begins DECODING. -/
def Obligations.StartOpensASession : Prop :=
  ∀ (m : Word) (B : Option Time) (s : State), s.status ≠ .decoding →
    let loaded (st : Status) : State :=
      { s with
        status := st, cfgMask := m, cfgGroups := groups m, cfgWidth := width m, cfgBudget := B, waAcc := 0#32,
        waCount := 0, lastValid := false, lastValue := 0#32, cursor := 0#64, trace := [], cancelPending := false,
        bytesConsumed := 0#64, errCursor := 0#64 }
    (m = 0#32 → exec (.start m B) s = .next (loaded (.error .configuration)) ∧ (width m).val = 0 ∧ groups m = 0#4) ∧
    (m ≠ 0#32 → B = some 0#64 → exec (.start m B) s = .next (loaded (.done .budget))) ∧
    (m ≠ 0#32 → B ≠ some 0#64 → exec (.start m B) s = .next (loaded .decoding))

/-- R193, R195, R197, R199: the ignored events change no state at all. -/
def Obligations.IgnoredEventsChangeNothing : Prop :=
  ∀ s : State,
    (s.status = .decoding → ∀ m B, exec (.start m B) s = .next s) ∧
    (s.status ≠ .decoding → (∀ b, exec (.byte b) s = .next s) ∧ exec .eos s = .next s ∧ exec .cancel s = .next s)

/-- R196: EOS ends the session normally at a word boundary and corruptly inside a word, even with a cancel pending. -/
def Obligations.EosEndsTheSession : Prop :=
  ∀ s : State, s.status = .decoding →
    (s.waCount.val = 0 → exec .eos s = .next { s with status := .done .eos }) ∧
    (0 < s.waCount.val →
      exec .eos s = .next { s with status := .error .corruptStream, errCursor := s.cursor, cancelPending := false })

/-- R198: CANCEL is observed at once at a word boundary and latched inside a word. -/
def Obligations.CancelIsObservedOrLatched : Prop :=
  ∀ s : State, s.status = .decoding →
    (s.waCount.val = 0 →
      exec .cancel s = .next { s with status := .error .cancelled, errCursor := s.cursor, cancelPending := false }) ∧
    (0 < s.waCount.val → exec .cancel s = .next { s with cancelPending := true })

/-! ### The step -/

/-- R3, R190: a step takes the oldest offered event and runs what it decodes to; the queue is the model's (log 1). -/
def Obligations.StepRunsTheOldestEvent : Prop :=
  ∀ (s : State) (e : HostEvent) (es : List HostEvent) (i : Instr), s.inbox = e :: es → decodeEvent e = .ok i →
    step s = exec i { s with inbox := es }

/-- R203, R249 and log 11: while the host is silent the state is kept. -/
def Obligations.SilentHostKeepsTheState : Prop :=
  ∀ s : State, s.inbox = [] → step s = .next s

/-- R190: every event is handled in every status, so a step over events that exist always answers a next state. -/
def Obligations.EveryEventStepCompletes : Prop :=
  (∀ (i : Instr) (s : State), isEvent i → ∃ t, exec i s = .next t) ∧
  (∀ s : State, (∀ e ∈ s.inbox, e.code.toNat < 5) → ∃ t, step s = .next t)

/-- The host's probe (log 2, log 9, log 10): the step after placing a table row runs that row; of a word, at a word
boundary of a session of its width with its bytes counted: the session that runs, if it has that width, else one with
all of groups 0 to n-1 enabled and no budget, in which only this word's bytes were consumed. -/
def Obligations.PlacedRowIsRunByTheNextStep : Prop :=
  ∀ (nbits w : Nat) (i : Instr) (s : State), decodeTableWord nbits w = some i →
    (isEvent i → step (s.withFetchWord nbits w) = exec i s) ∧
    (∀ bs, encode i = .word bs → bs.length = nbits / 8 ∧
      ∃ u : State, step (s.withFetchWord nbits w) = exec i u ∧ u.status = .decoding ∧ u.cfgWidth.val = bs.length ∧
        (s.status = .decoding → s.cfgWidth.val = bs.length →
          u = { s with bytesConsumed := s.bytesConsumed + BitVec.ofNat 64 bs.length, waAcc := 0#32, waCount := 0 }) ∧
        (s.status ≠ .decoding ∨ s.cfgWidth.val ≠ bs.length →
          u = { loadSession (prefixMask bs.length) none s with
            status := .decoding, bytesConsumed := BitVec.ofNat 64 bs.length }))

/-! ### Whole-machine rules -/

/-- R201 (derived in the spec): under the invariant, a host event changes `status` exactly as the phase graph says. -/
def Obligations.StatusFollowsThePhaseGraph : Prop :=
  ∀ (i : Instr) (s t : State), BlockInv s → isEvent i → exec i s = .next t →
    (∀ st, PhaseChange s i st → t.status = st) ∧ (t.status ≠ s.status → PhaseChange s i t.status)

/-- R38: while DECODING only RESET changes the configuration, and it ends the session. -/
def Obligations.ConfigurationFixedWhileDecoding : Prop :=
  ∀ (i : Instr) (s t : State), s.status = .decoding → exec i s = .next t →
    (i ≠ .reset → t.cfgMask = s.cfgMask ∧ t.cfgGroups = s.cfgGroups ∧ t.cfgWidth = s.cfgWidth ∧ t.cfgBudget = s.cfgBudget) ∧
    (i = .reset → t.status = .idle)

/-- R171: a record enters only at the end of the buffer, at the cursor, one per step and only by a SAMPLE word (a
SAMPLE row, or the byte that completes one); none is rewritten or removed within a session. -/
def Obligations.TraceIsAppendOnly : Prop :=
  ∀ (i : Instr) (s t : State), exec i s = .next t → i ≠ .reset → (∀ m B, i = .start m B → s.status = .decoding) →
    t.trace = s.trace ∨
      (s.status = .decoding ∧ t.trace = s.trace ++ [⟨t.lastValue, s.cursor⟩] ∧ t.lastValid = true ∧ t.cursor = s.cursor ∧
        ((∃ n row w, sampleRow n = some row ∧ i = row w) ∨
         (∃ b, i = .byte b ∧ s.cfgWidth.val ≤ s.waCount.val + 1 ∧
           runFlag s.cfgWidth.val (lowBits (8 * s.cfgWidth.val) (s.waAcc ||| (b.setWidth 32 <<< (8 * s.waCount.val)))) = false)))

/-- R175, R241: in a terminal status only START and RESET change anything, and they empty the buffer. -/
def Obligations.TerminalStatusIsKept : Prop :=
  ∀ (i : Instr) (s t : State), ((∃ d, s.status = .done d) ∨ ∃ e, s.status = .error e) → exec i s = .next t →
    (i ≠ .reset → (∀ m B, i ≠ .start m B) → t = s) ∧
    (i = .reset ∨ (∃ m B, i = .start m B) → t.trace = [] ∧ t.errCursor = 0#64 ∧ t.cursor = 0#64)

/-- R236: error entry writes the status, `err_cursor` and `cancel_pending` and nothing else; and every step that
enters an error status leaves `err_cursor` at the cursor and no cancel pending. -/
def Obligations.ErrorEntryRecordsTheCursor : Prop :=
  (∀ (e : ErrorStatus) (s : State),
    raise e s = { s with status := .error e, errCursor := s.cursor, cancelPending := false }) ∧
  (∀ (i : Instr) (s t : State) (e : ErrorStatus), exec i s = .next t → t.status = .error e → s.status ≠ .error e →
    t.errCursor = t.cursor ∧ t.cancelPending = false)

/-- R234: only the first word of a session raises ERR_PROTOCOL; `err_cursor` is 0, all W bytes are counted and there
is no record. -/
def Obligations.ProtocolErrorIsTheFirstWord : Prop :=
  ∀ (i : Instr) (s t : State), BlockInv s → isEvent i → exec i s = .next t → s.status ≠ .error .protocol →
    t.status = .error .protocol →
    t.errCursor = 0#64 ∧ t.cursor = 0#64 ∧ t.bytesConsumed.toNat = s.cfgWidth.val ∧ t.trace = []

/-- R270 (derived in the spec): the cursor that ends a session by the budget passes it by at most `2^(8W-1)-1`, and
the records are kept whole (R147). -/
def Obligations.BudgetOvershootIsBounded : Prop :=
  ∀ (b : Byte) (B : Time) (s t : State), BlockInv s → s.status = .decoding → s.cfgBudget = some B →
    exec (.byte b) s = .next t → t.status = .done .budget →
    B.toNat ≤ t.cursor.toNat ∧ t.cursor.toNat - B.toNat ≤ 2 ^ (8 * s.cfgWidth.val - 1) - 1 ∧ t.trace = s.trace

/-- The model's carriers (log 1, log 4): no instruction touches the parameters (R192: "every element except the
parameters") or the host's queue. -/
def Obligations.ParametersAndQueueAreNeverWritten : Prop :=
  ∀ (i : Instr) (s t : State), exec i s = .next t → t.params = s.params ∧ t.inbox = s.inbox

/-! ### Invariants -/

/-- The invariants of R37 hold at reset. -/
def Obligations.InvariantHoldsAtReset : Prop := BlockInv State.reset ∧ State.reset.byteAligned

/-- R37 items 1 to 7 (derived in the spec), with R25, R26, R28, R30, R35: every step keeps them. -/
def Obligations.EveryStepKeepsTheInvariant : Prop :=
  ∀ s t : State, BlockInv s → step s = .next t → BlockInv t

/-- R37 item 8 (derived in the spec), for a step that does not wrap `bytes_consumed` (log 16). -/
def Obligations.BytesConsumedStayAligned : Prop :=
  ∀ s t : State, BlockInv s → s.byteAligned → s.bytesConsumed ≠ BitVec.allOnes 64 → step s = .next t → t.byteAligned

/-! ### Runs -/

/-- R149 (derived in the spec): after an accepted START nothing of the earlier state remains, so the same events give
the same state, bit for bit. -/
def Obligations.SessionsDoNotDependOnThePast : Prop :=
  ∀ (m : Word) (B : Option Time) (es : List HostEvent) (s₁ s₂ : State),
    s₁.status ≠ .decoding → s₂.status ≠ .decoding → s₁.params = s₂.params →
    deliver ({ code := 1#3, mask := m, budget := B } :: es) s₁ = deliver ({ code := 1#3, mask := m, budget := B } :: es) s₂

/-- R80 (derived in the spec): the RUN words of `HOLD d` are all legal and their durations add up to `d`. -/
def Obligations.HoldDurationsAddUp : Prop :=
  ∀ n d : Nat, 1 ≤ n → n ≤ 4 → 1 ≤ d →
    ((holdCounts n d).map (· + 1)).sum = d ∧ (∀ c ∈ holdCounts n d, c < 2 ^ (8 * n - 1)) ∧
    (holdBytes n d).isSome = true ∧ holdBytes n 0 = none

/-- The round-trip law (90_conflicts.md C6; R141 to R143, R150, R177): START, the LEVEL items of any list of levels and
EOS give DONE_EOS with one record per level, in order, at the sum of the durations before it, and the cursor at the
total. -/
def Obligations.LevelsRoundTrip : Prop :=
  ∀ (m : Word) (levels : List (Nat × Nat)) (bytes : List (List Byte)) (s : State),
    s.status ≠ .decoding → m ≠ 0#32 →
    (∀ cap, s.params.traceCapacity = some cap → levels.length ≤ cap) →
    totalDuration levels < 2 ^ 64 →
    levels.mapM (fun (v, d) => levelBytes (width m).val v d) = some bytes →
    ∃ t, deliver (({ code := 1#3, mask := m } :: bytes.flatten.map byteEvent) ++ [{ code := 3#3 }]) s = .next t ∧
      t.status = .done .eos ∧
      t.trace = levelTrace (fun w => place s.params.groupPlacement (groups m) w &&& m) 0 levels ∧
      t.cursor.toNat = totalDuration levels

/-! ### Outputs -/

/-- R239: the status codes; the error statuses are those with bit 3 set, and 4 to 7, 14, 15 are no status. -/
def Obligations.StatusCodesAreTheTable : Prop :=
  Status.idle.code = 0#4 ∧ Status.decoding.code = 1#4 ∧ (Status.done .eos).code = 2#4 ∧ (Status.done .budget).code = 3#4 ∧
  (Status.error .configuration).code = 8#4 ∧ (Status.error .corruptStream).code = 9#4 ∧
  (Status.error .protocol).code = 10#4 ∧ (Status.error .cancelled).code = 11#4 ∧
  (Status.error .cursorOverflow).code = 12#4 ∧ (Status.error .capacity).code = 13#4 ∧
  (∀ st : Status, Status.ofCode st.code = some st ∧ (st.code.getLsbD 3 = true ↔ ∃ e, st = .error e)) ∧
  (∀ c : BitVec 4, (4 ≤ c.toNat ∧ c.toNat ≤ 7) ∨ 14 ≤ c.toNat → Status.ofCode c = none)

/-- R33: the three outputs that are functions of `status`. -/
def Obligations.StatusOutputs : Prop :=
  ∀ s : State,
    (s.busy = true ↔ s.status = .decoding) ∧
    (s.traceValid = true ↔ s.status = .done .eos ∨ s.status = .done .budget) ∧
    (s.error = true ↔ ∃ e, s.status = .error e) ∧ s.error = s.status.code.getLsbD 3

/-- R54, R173: a record is readable exactly when the Trace is published and the index is below `rec_count`; any other
read is refused and gives no value. -/
def Obligations.TraceReadOnlyWhenPublished : Prop :=
  ∀ (i : Nat) (s : State),
    ((∃ d, s.status = .done d) → ∀ r, s.trace[i]? = some r → traceRead i s = .ok r) ∧
    ((∃ d, s.status = .done d) → s.recCount ≤ i → traceRead i s = .error (.noSuchRecord i)) ∧
    ((∀ d, s.status ≠ .done d) → traceRead i s = .error .traceNotPublished)

/-- R205: every readout of the table, where it is defined and where it is not. -/
def Obligations.ReadoutsAreTheTable : Prop :=
  ∀ s : State,
    readout .status s = .ok (.code s.status.code) ∧ readout .busy s = .ok (.flag s.busy) ∧
    readout .traceValid s = .ok (.flag s.traceValid) ∧ readout .error s = .ok (.flag s.error) ∧
    readout .mask s = .ok (.mask s.cfgMask) ∧ readout .groups s = .ok (.groups s.cfgGroups) ∧
    readout .width s = .ok (.width s.cfgWidth) ∧ readout .budget s = .ok (.budget s.cfgBudget) ∧
    readout .cursor s = .ok (.count s.cursor) ∧ readout .bytesConsumed s = .ok (.count s.bytesConsumed) ∧
    readout .errCursor s = .ok (.count s.errCursor) ∧
    (s.traceValid = true → readout .recCount s = .ok (.records s.recCount) ∧
      (∀ i r, s.trace[i]? = some r → readout (.record i) s = .ok (.record r)) ∧
      (∀ i, s.recCount ≤ i → ∃ e, readout (.record i) s = .error e)) ∧
    (s.traceValid = false → (∃ e, readout .recCount s = .error e) ∧ ∀ i, ∃ e, readout (.record i) s = .error e)
end

