-- ==== Sys2Proof/Laws/Decode.lean ====
section
/-! SUPPORT. The bits of the encoding helpers, and the shape of a word's bytes. -/

namespace Sys2Proof

@[simp] theorem getLsbD_lowBits (k : Nat) (w : Word) (i : Nat) :
    (lowBits k w).getLsbD i = (w.getLsbD i && decide (i < k)) := by
  have hmask : ((1#32 <<< k) - 1#32).getLsbD i = (decide (i < 32) && decide (i < k)) := by
    rcases Nat.lt_or_ge k 32 with hk | hk
    · have h : (1#32 <<< k) - 1#32 = BitVec.ofNat 32 (2 ^ k - 1) := by
        apply BitVec.eq_of_toNat_eq
        have hp : 2 ^ k < 2 ^ 32 := Nat.pow_lt_pow_right (by decide) hk
        have h1 : 0 < 2 ^ k := Nat.two_pow_pos k
        simp only [BitVec.toNat_sub, BitVec.toNat_shiftLeft, BitVec.toNat_ofNat, Nat.shiftLeft_eq]
        omega
      rw [h]
      simp [BitVec.getLsbD_ofNat, Nat.testBit_two_pow_sub_one]
    · have h : (1#32 <<< k) = 0#32 := by
        apply BitVec.eq_of_getLsbD_eq
        intro j hj
        simp only [BitVec.getLsbD_shiftLeft, BitVec.getLsbD_zero]
        have : j < k := by omega
        simp [this]
      rw [h]
      have hall : (0#32 - 1#32) = BitVec.allOnes 32 := by decide
      rw [hall, BitVec.getLsbD_allOnes]
      by_cases hi : i < 32
      · have : i < k := by omega
        simp [this]
      · simp [hi]
  unfold lowBits
  rw [BitVec.getLsbD_and, hmask]
  by_cases hi : i < 32
  · simp [hi]
  · simp [BitVec.getLsbD_of_ge w i (by omega)]

@[simp] theorem getLsbD_byteAt (i : Nat) (w : Word) (j : Nat) :
    (byteAt i w).getLsbD j = (decide (j < 8) && w.getLsbD (8 * i + j)) := by
  simp [byteAt]

@[simp] theorem getLsbD_inLane (i : Nat) (b : Byte) (j : Nat) :
    (inLane i b).getLsbD j = (decide (j < 32) && decide (8 * i ≤ j) && b.getLsbD (j - 8 * i)) := by
  by_cases h : 8 * i ≤ j
  · by_cases hj : j < 32
    · simp [inLane, h, hj]
    · simp [inLane, hj]
  · simp [inLane, h]

/-- Bit `8j+k` of a word is bit `k` of byte `j` (R55). -/
theorem getLsbD_wireWord (bs : List Byte) (i : Nat) :
    (wireWord bs).getLsbD i = (decide (i < 32) && (bs.getD (i / 8) 0#8).getLsbD (i % 8)) := by
  induction bs generalizing i with
  | nil => simp [wireWord]
  | cons b bs ih =>
    rw [wireWord, BitVec.getLsbD_or, BitVec.getLsbD_shiftLeft, getLsbD_inLane, ih]
    by_cases hi : i < 32
    · by_cases h8 : i < 8
      · have h0 : i / 8 = 0 := by omega
        have h1 : i % 8 = i := by omega
        simp [hi, h8, h0, h1]
      · obtain ⟨k, rfl⟩ : ∃ k, i = k + 8 := ⟨i - 8, by omega⟩
        have hk : k < 32 := by omega
        have hd : (k + 8) / 8 = k / 8 + 1 := by omega
        have hm : (k + 8) % 8 = k % 8 := by omega
        simp [hi, hk, hd, hm]
    · simp [hi]

@[simp] theorem length_wordBytes (n : Nat) (w : Word) : (wordBytes n w).length = n := by simp [wordBytes]

/-- The bytes of a word give back its low `8n` bits (R71). -/
theorem wireWord_wordBytes (n : Nat) (w : Word) : wireWord (wordBytes n w) = lowBits (8 * n) w := by
  apply BitVec.eq_of_getLsbD_eq
  intro i hi
  rw [getLsbD_wireWord, getLsbD_lowBits]
  by_cases hn : i / 8 < n
  · have h1 : i < 8 * n := by omega
    have h2 : 8 * (i / 8) + i % 8 = i := by omega
    have h3 : i % 8 < 8 := by omega
    simp [wordBytes, List.getD, hi, hn, h1, h2, h3, -BitVec.getLsbD_eq_getElem]
  · have h1 : ¬ i < 8 * n := by omega
    simp [wordBytes, List.getD, hn, h1]

/-- A word whose value fits in `k` bits is its own low part. -/
theorem lowBits_of_lt {k : Nat} {w : Word} (h : w.toNat < 2 ^ k) : lowBits k w = w := by
  apply BitVec.eq_of_getLsbD_eq
  intro i _
  rw [getLsbD_lowBits]
  by_cases hk : i < k
  · simp [hk]
  · have : w.getLsbD i = false :=
      Nat.testBit_lt_two_pow (Nat.lt_of_lt_of_le h (Nat.pow_le_pow_right (by decide) (by omega)))
    simp [this]

/-- A value below `2^k` has no bit at or above `k`. -/
theorem getLsbD_of_toNat_lt {k : Nat} {w : Word} (h : w.toNat < 2 ^ k) {i : Nat} (hi : k ≤ i) : w.getLsbD i = false :=
  Nat.testBit_lt_two_pow (Nat.lt_of_lt_of_le h (Nat.pow_le_pow_right (by decide) hi))

/-- No bit at or above `k` means a value below `2^k`. -/
theorem toNat_lt_of_getLsbD {k : Nat} {w : Word} (h : ∀ i, k ≤ i → w.getLsbD i = false) : w.toNat < 2 ^ k :=
  Nat.lt_pow_two_of_testBit w.toNat fun i hi => h i hi

theorem toNat_lowBits_lt (k : Nat) (w : Word) : (lowBits k w).toNat < 2 ^ k :=
  toNat_lt_of_getLsbD fun i hi => by
    have : ¬ i < k := by omega
    simp [this]

@[simp] theorem lowBits_lowBits (k : Nat) (w : Word) : lowBits k (lowBits k w) = lowBits k w :=
  lowBits_of_lt (toNat_lowBits_lt k w)

/-- The flag of a RUN word of 1 to 4 bytes is set (R72). -/
theorem runFlag_runWordOf {n : Nat} (hn : 1 ≤ n ∧ n ≤ 4) (c : Word) : runFlag n (runWordOf n c) = true := by
  have : 8 * n - 1 < 32 := by omega
  simp [runFlag, runWordOf, this]

/-- The payload of a RUN word is its count (R72, R79). -/
theorem runPayload_runWordOf {n : Nat} {c : Word} (h : PayloadFits n c) : runPayload n (runWordOf n c) = c := by
  apply BitVec.eq_of_getLsbD_eq
  intro i hi
  rw [runPayload, getLsbD_lowBits, runWordOf, BitVec.getLsbD_or, BitVec.getLsbD_shiftLeft]
  by_cases hk : i < 8 * n - 1
  · simp [hk]
  · simp [hk, getLsbD_of_toNat_lt h (by omega : 8 * n - 1 ≤ i)]

/-- The flag of a SAMPLE word is clear (R73). -/
theorem runFlag_of_fits {n : Nat} {v : Word} (h : PayloadFits n v) : runFlag n v = false :=
  getLsbD_of_toNat_lt h (Nat.le_refl _)

/-- A RUN word fits in its bytes. -/
theorem lowBits_runWordOf {n : Nat} (hn : 1 ≤ n) {c : Word} (h : PayloadFits n c) :
    lowBits (8 * n) (runWordOf n c) = runWordOf n c := by
  apply BitVec.eq_of_getLsbD_eq
  intro i hi
  rw [getLsbD_lowBits]
  by_cases hk : i < 8 * n
  · simp [hk]
  · have h1 : c.getLsbD i = false := getLsbD_of_toNat_lt h (by omega)
    have h2 : ¬ i < 8 * n - 1 := by omega
    have h3 : i - (8 * n - 1) ≠ 0 := by omega
    simp [runWordOf, h1, hk, hi, h2, h3, -BitVec.getLsbD_eq_getElem]

/-- The payload of any word fits (R123). -/
theorem runPayload_fits (n : Nat) (w : Word) : PayloadFits n (runPayload n w) := toNat_lowBits_lt _ _

/-- A word of `n` bytes with the flag clear has a payload that fits. -/
theorem fits_of_runFlag {n : Nat} {w : Word} (hw : w.toNat < 2 ^ (8 * n)) (hf : runFlag n w = false) :
    PayloadFits n w :=
  toNat_lt_of_getLsbD fun i hi => by
    rcases Nat.eq_or_lt_of_le hi with h | h
    · rw [← h]; exact hf
    · exact getLsbD_of_toNat_lt hw (by omega)

/-- The bytes of a word as a number are those bytes again. -/
theorem wordBytes_wireWord {bs : List Byte} (h : bs.length ≤ 4) : wordBytes bs.length (wireWord bs) = bs := by
  apply List.ext_getElem (by simp)
  intro i h1 h2
  apply BitVec.eq_of_getLsbD_eq
  intro j hj
  have hd : (8 * i + j) / 8 = i := by omega
  have hm : (8 * i + j) % 8 = j := by omega
  have hlt : 8 * i + j < 32 := by
    have : i < bs.length := h2
    omega
  simp [wordBytes, getLsbD_wireWord, hd, hm, hlt, hj, List.getD, h2, -BitVec.getLsbD_eq_getElem]

/-- A word of `n` bytes is below `2^(8n)`. -/
theorem wireWord_lt (bs : List Byte) : (wireWord bs).toNat < 2 ^ (8 * bs.length) :=
  toNat_lt_of_getLsbD fun i hi => by
    have : bs.length ≤ i / 8 := by omega
    simp [getLsbD_wireWord, List.getD, List.getElem?_eq_none this]

/-- Appending a byte puts it in the next lane (R120). -/
theorem wireWord_append (bs : List Byte) (b : Byte) :
    wireWord (bs ++ [b]) = wireWord bs ||| inLane bs.length b := by
  apply BitVec.eq_of_getLsbD_eq
  intro i hi
  rw [getLsbD_wireWord, BitVec.getLsbD_or, getLsbD_wireWord, getLsbD_inLane]
  rcases Nat.lt_trichotomy (i / 8) bs.length with h | h | h
  · have : ¬ 8 * bs.length ≤ i := by omega
    simp [List.getD, List.getElem?_append_left h, this]
  · have h1 : 8 * bs.length ≤ i := by omega
    have h2 : i - 8 * bs.length = i % 8 := by omega
    simp [List.getD, h, h1, h2, hi]
  · have h1 : 8 * bs.length ≤ i := by omega
    have h2 : b.getLsbD (i - 8 * bs.length) = false := BitVec.getLsbD_of_ge b _ (by omega)
    have h3 : (bs ++ [b]).length ≤ i / 8 := by simp; omega
    have h4 : bs.length ≤ i / 8 := by omega
    simp [List.getD, List.getElem?_eq_none h3, List.getElem?_eq_none h4, h2]

/-- A word with the flag set is the RUN word of its payload (R72, R123). -/
theorem runWordOf_runPayload {n : Nat} (hn : 1 ≤ n ∧ n ≤ 4) {w : Word} (hw : w.toNat < 2 ^ (8*n)) (hf : runFlag n w = true) :
    runWordOf n (runPayload n w) = w := by
  apply BitVec.eq_of_getLsbD_eq
  intro i hi
  rw [runWordOf, BitVec.getLsbD_or, runPayload, getLsbD_lowBits, BitVec.getLsbD_shiftLeft]
  rcases Nat.lt_trichotomy i (8*n-1) with h | h | h
  · simp [h, hi]
  · subst h
    rw [runFlag] at hf
    simp [hf, hi, -BitVec.getLsbD_eq_getElem]
  · have h1 : w.getLsbD i = false := getLsbD_of_toNat_lt hw (by omega)
    have h2 : i - (8*n-1) ≠ 0 := by omega
    simp [h1, h2, -BitVec.getLsbD_eq_getElem]

/-- The flag bit of a word, picked out by the row's mask (R81). -/
theorem and_flagBit (n : Nat) (w : Word) :
    (w &&& (1#32 <<< (8 * n - 1))) = if runFlag n w then 1#32 <<< (8 * n - 1) else 0#32 := by
  apply BitVec.eq_of_getLsbD_eq
  intro i hi
  rw [BitVec.getLsbD_and, BitVec.getLsbD_shiftLeft]
  by_cases h : i = 8*n-1
  · subst h
    cases hf : runFlag n w
    · rw [runFlag] at hf; simp [hf, -BitVec.getLsbD_eq_getElem]
    · rw [runFlag] at hf; simp [hf, hi, -BitVec.getLsbD_eq_getElem]
  · have : ¬ (8*n-1 ≤ i ∧ i - (8*n-1) = 0) := by omega
    cases hf : runFlag n w
    · simp [hi, -BitVec.getLsbD_eq_getElem]; omega
    · simp [hi, -BitVec.getLsbD_eq_getElem]; intros; omega

end Sys2Proof
end

