-- ==== Sys2Proof/Laws/State.lean ====
section
/-! SUPPORT. One lemma per field per named update of State, each true by definition. -/

namespace Sys2Proof.Machine

variable (s : State)

/-! ### `raise` -/

@[simp] theorem raise_status (e : ErrorStatus) : (raise e s).status = .error e := rfl
@[simp] theorem raise_cfgMask (e : ErrorStatus) : (raise e s).cfgMask = s.cfgMask := rfl
@[simp] theorem raise_cfgGroups (e : ErrorStatus) : (raise e s).cfgGroups = s.cfgGroups := rfl
@[simp] theorem raise_cfgWidth (e : ErrorStatus) : (raise e s).cfgWidth = s.cfgWidth := rfl
@[simp] theorem raise_cfgBudget (e : ErrorStatus) : (raise e s).cfgBudget = s.cfgBudget := rfl
@[simp] theorem raise_waAcc (e : ErrorStatus) : (raise e s).waAcc = s.waAcc := rfl
@[simp] theorem raise_waCount (e : ErrorStatus) : (raise e s).waCount = s.waCount := rfl
@[simp] theorem raise_lastValid (e : ErrorStatus) : (raise e s).lastValid = s.lastValid := rfl
@[simp] theorem raise_lastValue (e : ErrorStatus) : (raise e s).lastValue = s.lastValue := rfl
@[simp] theorem raise_cursor (e : ErrorStatus) : (raise e s).cursor = s.cursor := rfl
@[simp] theorem raise_trace (e : ErrorStatus) : (raise e s).trace = s.trace := rfl
@[simp] theorem raise_cancelPending (e : ErrorStatus) : (raise e s).cancelPending = false := rfl
@[simp] theorem raise_bytesConsumed (e : ErrorStatus) : (raise e s).bytesConsumed = s.bytesConsumed := rfl
@[simp] theorem raise_errCursor (e : ErrorStatus) : (raise e s).errCursor = s.cursor := rfl
@[simp] theorem raise_params (e : ErrorStatus) : (raise e s).params = s.params := rfl
@[simp] theorem raise_inbox (e : ErrorStatus) : (raise e s).inbox = s.inbox := rfl

/-! ### `finish` -/

@[simp] theorem finish_status (d : DoneStatus) : (finish d s).status = .done d := rfl
@[simp] theorem finish_cfgMask (d : DoneStatus) : (finish d s).cfgMask = s.cfgMask := rfl
@[simp] theorem finish_cfgGroups (d : DoneStatus) : (finish d s).cfgGroups = s.cfgGroups := rfl
@[simp] theorem finish_cfgWidth (d : DoneStatus) : (finish d s).cfgWidth = s.cfgWidth := rfl
@[simp] theorem finish_cfgBudget (d : DoneStatus) : (finish d s).cfgBudget = s.cfgBudget := rfl
@[simp] theorem finish_waAcc (d : DoneStatus) : (finish d s).waAcc = s.waAcc := rfl
@[simp] theorem finish_waCount (d : DoneStatus) : (finish d s).waCount = s.waCount := rfl
@[simp] theorem finish_lastValid (d : DoneStatus) : (finish d s).lastValid = s.lastValid := rfl
@[simp] theorem finish_lastValue (d : DoneStatus) : (finish d s).lastValue = s.lastValue := rfl
@[simp] theorem finish_cursor (d : DoneStatus) : (finish d s).cursor = s.cursor := rfl
@[simp] theorem finish_trace (d : DoneStatus) : (finish d s).trace = s.trace := rfl
@[simp] theorem finish_cancelPending (d : DoneStatus) : (finish d s).cancelPending = s.cancelPending := rfl
@[simp] theorem finish_bytesConsumed (d : DoneStatus) : (finish d s).bytesConsumed = s.bytesConsumed := rfl
@[simp] theorem finish_errCursor (d : DoneStatus) : (finish d s).errCursor = s.errCursor := rfl
@[simp] theorem finish_params (d : DoneStatus) : (finish d s).params = s.params := rfl
@[simp] theorem finish_inbox (d : DoneStatus) : (finish d s).inbox = s.inbox := rfl

/-! ### `appendRecord` -/

@[simp] theorem appendRecord_status (v : Word) : (appendRecord v s).status = s.status := rfl
@[simp] theorem appendRecord_cfgMask (v : Word) : (appendRecord v s).cfgMask = s.cfgMask := rfl
@[simp] theorem appendRecord_cfgGroups (v : Word) : (appendRecord v s).cfgGroups = s.cfgGroups := rfl
@[simp] theorem appendRecord_cfgWidth (v : Word) : (appendRecord v s).cfgWidth = s.cfgWidth := rfl
@[simp] theorem appendRecord_cfgBudget (v : Word) : (appendRecord v s).cfgBudget = s.cfgBudget := rfl
@[simp] theorem appendRecord_waAcc (v : Word) : (appendRecord v s).waAcc = s.waAcc := rfl
@[simp] theorem appendRecord_waCount (v : Word) : (appendRecord v s).waCount = s.waCount := rfl
@[simp] theorem appendRecord_lastValid (v : Word) : (appendRecord v s).lastValid = s.lastValid := rfl
@[simp] theorem appendRecord_lastValue (v : Word) : (appendRecord v s).lastValue = s.lastValue := rfl
@[simp] theorem appendRecord_cursor (v : Word) : (appendRecord v s).cursor = s.cursor := rfl
@[simp] theorem appendRecord_trace (v : Word) : (appendRecord v s).trace = s.trace ++ [⟨v, s.cursor⟩] := rfl
@[simp] theorem appendRecord_cancelPending (v : Word) : (appendRecord v s).cancelPending = s.cancelPending := rfl
@[simp] theorem appendRecord_bytesConsumed (v : Word) : (appendRecord v s).bytesConsumed = s.bytesConsumed := rfl
@[simp] theorem appendRecord_errCursor (v : Word) : (appendRecord v s).errCursor = s.errCursor := rfl
@[simp] theorem appendRecord_params (v : Word) : (appendRecord v s).params = s.params := rfl
@[simp] theorem appendRecord_inbox (v : Word) : (appendRecord v s).inbox = s.inbox := rfl

/-! ### `keepByte` -/

@[simp] theorem keepByte_status (b : Byte) : (keepByte b s).status = s.status := rfl
@[simp] theorem keepByte_cfgMask (b : Byte) : (keepByte b s).cfgMask = s.cfgMask := rfl
@[simp] theorem keepByte_cfgGroups (b : Byte) : (keepByte b s).cfgGroups = s.cfgGroups := rfl
@[simp] theorem keepByte_cfgWidth (b : Byte) : (keepByte b s).cfgWidth = s.cfgWidth := rfl
@[simp] theorem keepByte_cfgBudget (b : Byte) : (keepByte b s).cfgBudget = s.cfgBudget := rfl
@[simp] theorem keepByte_waAcc (b : Byte) : (keepByte b s).waAcc = accumulate s b := rfl
@[simp] theorem keepByte_waCount (b : Byte) : (keepByte b s).waCount = Fin.ofNat 4 (s.waCount.val + 1) := rfl
@[simp] theorem keepByte_lastValid (b : Byte) : (keepByte b s).lastValid = s.lastValid := rfl
@[simp] theorem keepByte_lastValue (b : Byte) : (keepByte b s).lastValue = s.lastValue := rfl
@[simp] theorem keepByte_cursor (b : Byte) : (keepByte b s).cursor = s.cursor := rfl
@[simp] theorem keepByte_trace (b : Byte) : (keepByte b s).trace = s.trace := rfl
@[simp] theorem keepByte_cancelPending (b : Byte) : (keepByte b s).cancelPending = s.cancelPending := rfl
@[simp] theorem keepByte_bytesConsumed (b : Byte) : (keepByte b s).bytesConsumed = s.bytesConsumed + 1#64 := rfl
@[simp] theorem keepByte_errCursor (b : Byte) : (keepByte b s).errCursor = s.errCursor := rfl
@[simp] theorem keepByte_params (b : Byte) : (keepByte b s).params = s.params := rfl
@[simp] theorem keepByte_inbox (b : Byte) : (keepByte b s).inbox = s.inbox := rfl

/-! ### `closeWord` -/

@[simp] theorem closeWord_status : (closeWord s).status = s.status := rfl
@[simp] theorem closeWord_cfgMask : (closeWord s).cfgMask = s.cfgMask := rfl
@[simp] theorem closeWord_cfgGroups : (closeWord s).cfgGroups = s.cfgGroups := rfl
@[simp] theorem closeWord_cfgWidth : (closeWord s).cfgWidth = s.cfgWidth := rfl
@[simp] theorem closeWord_cfgBudget : (closeWord s).cfgBudget = s.cfgBudget := rfl
@[simp] theorem closeWord_waAcc : (closeWord s).waAcc = 0#32 := rfl
@[simp] theorem closeWord_waCount : (closeWord s).waCount = 0 := rfl
@[simp] theorem closeWord_lastValid : (closeWord s).lastValid = s.lastValid := rfl
@[simp] theorem closeWord_lastValue : (closeWord s).lastValue = s.lastValue := rfl
@[simp] theorem closeWord_cursor : (closeWord s).cursor = s.cursor := rfl
@[simp] theorem closeWord_trace : (closeWord s).trace = s.trace := rfl
@[simp] theorem closeWord_cancelPending : (closeWord s).cancelPending = s.cancelPending := rfl
@[simp] theorem closeWord_bytesConsumed : (closeWord s).bytesConsumed = s.bytesConsumed + 1#64 := rfl
@[simp] theorem closeWord_errCursor : (closeWord s).errCursor = s.errCursor := rfl
@[simp] theorem closeWord_params : (closeWord s).params = s.params := rfl
@[simp] theorem closeWord_inbox : (closeWord s).inbox = s.inbox := rfl

/-! ### `loadSession` -/

@[simp] theorem loadSession_status (m : Word) (B : Option Time) : (loadSession m B s).status = s.status := rfl
@[simp] theorem loadSession_cfgMask (m : Word) (B : Option Time) : (loadSession m B s).cfgMask = m := rfl
@[simp] theorem loadSession_cfgGroups (m : Word) (B : Option Time) : (loadSession m B s).cfgGroups = groups m := rfl
@[simp] theorem loadSession_cfgWidth (m : Word) (B : Option Time) : (loadSession m B s).cfgWidth = width m := rfl
@[simp] theorem loadSession_cfgBudget (m : Word) (B : Option Time) : (loadSession m B s).cfgBudget = B := rfl
@[simp] theorem loadSession_waAcc (m : Word) (B : Option Time) : (loadSession m B s).waAcc = 0#32 := rfl
@[simp] theorem loadSession_waCount (m : Word) (B : Option Time) : (loadSession m B s).waCount = 0 := rfl
@[simp] theorem loadSession_lastValid (m : Word) (B : Option Time) : (loadSession m B s).lastValid = false := rfl
@[simp] theorem loadSession_lastValue (m : Word) (B : Option Time) : (loadSession m B s).lastValue = 0#32 := rfl
@[simp] theorem loadSession_cursor (m : Word) (B : Option Time) : (loadSession m B s).cursor = 0#64 := rfl
@[simp] theorem loadSession_trace (m : Word) (B : Option Time) : (loadSession m B s).trace = [] := rfl
@[simp] theorem loadSession_cancelPending (m : Word) (B : Option Time) : (loadSession m B s).cancelPending = false := rfl
@[simp] theorem loadSession_bytesConsumed (m : Word) (B : Option Time) : (loadSession m B s).bytesConsumed = 0#64 := rfl
@[simp] theorem loadSession_errCursor (m : Word) (B : Option Time) : (loadSession m B s).errCursor = 0#64 := rfl
@[simp] theorem loadSession_params (m : Word) (B : Option Time) : (loadSession m B s).params = s.params := rfl
@[simp] theorem loadSession_inbox (m : Word) (B : Option Time) : (loadSession m B s).inbox = s.inbox := rfl

/-! ### `offer` -/

@[simp] theorem offer_status (e : HostEvent) : (offer e s).status = s.status := rfl
@[simp] theorem offer_cfgMask (e : HostEvent) : (offer e s).cfgMask = s.cfgMask := rfl
@[simp] theorem offer_cfgGroups (e : HostEvent) : (offer e s).cfgGroups = s.cfgGroups := rfl
@[simp] theorem offer_cfgWidth (e : HostEvent) : (offer e s).cfgWidth = s.cfgWidth := rfl
@[simp] theorem offer_cfgBudget (e : HostEvent) : (offer e s).cfgBudget = s.cfgBudget := rfl
@[simp] theorem offer_waAcc (e : HostEvent) : (offer e s).waAcc = s.waAcc := rfl
@[simp] theorem offer_waCount (e : HostEvent) : (offer e s).waCount = s.waCount := rfl
@[simp] theorem offer_lastValid (e : HostEvent) : (offer e s).lastValid = s.lastValid := rfl
@[simp] theorem offer_lastValue (e : HostEvent) : (offer e s).lastValue = s.lastValue := rfl
@[simp] theorem offer_cursor (e : HostEvent) : (offer e s).cursor = s.cursor := rfl
@[simp] theorem offer_trace (e : HostEvent) : (offer e s).trace = s.trace := rfl
@[simp] theorem offer_cancelPending (e : HostEvent) : (offer e s).cancelPending = s.cancelPending := rfl
@[simp] theorem offer_bytesConsumed (e : HostEvent) : (offer e s).bytesConsumed = s.bytesConsumed := rfl
@[simp] theorem offer_errCursor (e : HostEvent) : (offer e s).errCursor = s.errCursor := rfl
@[simp] theorem offer_params (e : HostEvent) : (offer e s).params = s.params := rfl
@[simp] theorem offer_inbox (e : HostEvent) : (offer e s).inbox = e :: s.inbox := rfl

end Sys2Proof.Machine
end

