-- ==== Sys2Proof/Laws/Ops.lean ====
section
/-! SUPPORT. What each shared operation can do, said once. -/

namespace Sys2Proof.Machine

@[simp] theorem Progress.andThen_going (s : State) (k : State → State) : (Progress.going s).andThen k = k s := rfl
@[simp] theorem Progress.andThen_ended (s : State) (k : State → State) : (Progress.ended s).andThen k = s := rfl

/-- A finite capacity is reached (R141, R172). -/
theorem traceFull_iff (s : State) : s.traceFull = true ↔ s.params.traceCapacity = some s.recCount := by
  unfold State.traceFull
  cases s.params.traceCapacity with
  | none => simp
  | some n =>
    rw [beq_iff_eq, Option.some.injEq]
    exact eq_comm

theorem traceFull_eq_false_iff (s : State) : s.traceFull = false ↔ s.params.traceCapacity ≠ some s.recCount := by
  rw [← Bool.not_eq_true, traceFull_iff]

/-- A budget is given and the cursor is not below it (R146). -/
theorem budgetReached_iff (s : State) : s.budgetReached = true ↔ ∃ B, s.cfgBudget = some B ∧ B.toNat ≤ s.cursor.toNat := by
  unfold State.budgetReached
  cases s.cfgBudget with
  | none => simp
  | some B => simp

theorem budgetReached_eq_false_iff (s : State) :
    s.budgetReached = false ↔ ∀ B, s.cfgBudget = some B → s.cursor.toNat < B.toNat := by
  rw [← Bool.not_eq_true, budgetReached_iff]
  simp

/-- The boundary check takes the cancel, or ends by the budget, or does nothing (R146). -/
theorem boundaryCheck_cases (s : State) :
    (s.cancelPending = true ∧ boundaryCheck s = raise .cancelled s) ∨
    (s.cancelPending = false ∧ s.budgetReached = true ∧ boundaryCheck s = finish .budget s) ∨
    (s.cancelPending = false ∧ s.budgetReached = false ∧ boundaryCheck s = s) := by
  unfold boundaryCheck
  cases s.cancelPending <;> cases s.budgetReached <;> simp

/-- A SAMPLE word finds the buffer full, or takes effect and reaches the boundary check (R141, R151). -/
theorem processClass_sample (v : Word) (s : State) :
    (s.traceFull = true ∧ processClass (.sample v) s = raise .capacity s) ∨
    (s.traceFull = false ∧ processClass (.sample v) s =
      boundaryCheck { s with trace := s.trace ++ [⟨v, s.cursor⟩], lastValid := true, lastValue := v }) := by
  unfold processClass sampleOp
  cases s.traceFull <;> simp [appendRecord]

/-- RunOp raises ERR_PROTOCOL, raises ERR_CURSOR_OVERFLOW, or advances the cursor (R142, R145). -/
theorem runOp_cases (c : Word) (s : State) :
    (s.lastValid = false ∧ runOp c s = .ended (raise .protocol s)) ∨
    (s.lastValid = true ∧ 2 ^ 64 ≤ s.cursorAfter c ∧ runOp c s = .ended (raise .cursorOverflow s)) ∨
    (s.lastValid = true ∧ s.cursorAfter c < 2 ^ 64 ∧
      runOp c s = .going { s with cursor := BitVec.ofNat 64 (s.cursorAfter c) }) := by
  unfold runOp
  by_cases hv : s.lastValid = false
  · exact .inl ⟨hv, by rw [if_pos hv]⟩
  · have ht : s.lastValid = true := by simpa using hv
    by_cases h : 2 ^ 64 ≤ s.cursorAfter c
    · exact .inr (.inl ⟨ht, h, by rw [if_neg hv, if_pos h]⟩)
    · exact .inr (.inr ⟨ht, Nat.lt_of_not_le h, by rw [if_neg hv, if_neg h]⟩)

/-- A RUN word comes first, or overflows, or takes effect and reaches the boundary check (R142, R151). -/
theorem processClass_run (c : Word) (s : State) :
    (s.lastValid = false ∧ processClass (.run c) s = raise .protocol s) ∨
    (s.lastValid = true ∧ 2 ^ 64 ≤ s.cursorAfter c ∧ processClass (.run c) s = raise .cursorOverflow s) ∨
    (s.lastValid = true ∧ s.cursorAfter c < 2 ^ 64 ∧ processClass (.run c) s =
      boundaryCheck { s with cursor := BitVec.ofNat 64 (s.cursorAfter c) }) := by
  have he : processClass (.run c) s = (runOp c s).andThen boundaryCheck := rfl
  rw [he]
  rcases runOp_cases c s with ⟨hv, e⟩ | ⟨hv, ho, e⟩ | ⟨hv, hf, e⟩ <;> rw [e]
  · exact .inl ⟨hv, rfl⟩
  · exact .inr (.inl ⟨hv, ho, rfl⟩)
  · exact .inr (.inr ⟨hv, hf, rfl⟩)

/-- The effect of a word row in its session (R140, R151). -/
theorem inSessionOfWidth_eq {n : Nat} {s : State} (k : State → State) (h : s.status = .decoding) (hw : s.cfgWidth.val = n) :
    inSessionOfWidth n k s = .next (k s) := by simp [inSessionOfWidth, h, hw]

/-- A word row that answers a next state ran in its session, or was ignored (log 6, log 7). -/
theorem inSessionOfWidth_next {n : Nat} {s t : State} {k : State → State} (h : inSessionOfWidth n k s = .next t) :
    (s.status = .decoding ∧ s.cfgWidth.val = n ∧ t = k s) ∨ (s.status ≠ .decoding ∧ t = s) := by
  unfold inSessionOfWidth at h
  split at h
  · rename_i hd
    split at h
    · rename_i hw
      cases h
      exact .inl ⟨hd, hw, rfl⟩
    · cases h
  · rename_i hd
    cases h
    exact .inr ⟨hd, rfl⟩

/-- A byte is kept, or completes a word that is processed (R121). -/
theorem takeByte_cases (b : Byte) (s : State) :
    (s.waCount.val + 1 < s.cfgWidth.val ∧ takeByte b s = keepByte b s) ∨
    (s.cfgWidth.val ≤ s.waCount.val + 1 ∧
      takeByte b s = processWord s.cfgWidth.val (completedWord b s) (closeWord s)) := by
  unfold takeByte
  split
  · exact .inl ⟨‹_›, rfl⟩
  · exact .inr ⟨by omega, rfl⟩

/-- The count of kept bytes goes up by one: it stays below the width, so it does not wrap (R26). -/
theorem keepByte_waCount_val {b : Byte} {s : State} (h : s.waCount.val + 1 < s.cfgWidth.val) :
    (keepByte b s).waCount.val = s.waCount.val + 1 := by
  have := s.cfgWidth.isLt
  simp only [keepByte_waCount, Fin.val_ofNat]
  omega

/-- START leaves the zero mask in ERR_CONFIGURATION, a reached budget in DONE_BUDGET, else DECODING (R192). -/
theorem openSession_cases (s : State) :
    (s.cfgWidth.val = 0 ∧ openSession s = raise .configuration s) ∨
    (s.cfgWidth.val ≠ 0 ∧ s.budgetReached = true ∧ openSession s = { s with status := .done .budget }) ∨
    (s.cfgWidth.val ≠ 0 ∧ s.budgetReached = false ∧ openSession s = { s with status := .decoding }) := by
  have hb : ({ s with status := .decoding } : State).budgetReached = s.budgetReached := rfl
  unfold openSession
  by_cases h : s.cfgWidth.val = 0
  · simp [h]
  · cases hr : s.budgetReached <;> simp [h, hb, hr, finish]

/-- Right after the session elements are set, only a budget of 0 is reached (R147). -/
theorem loadSession_budgetReached (m : Word) (B : Option Time) (s : State) :
    (loadSession m B s).budgetReached = true ↔ B = some 0#64 := by
  rw [budgetReached_iff]
  constructor
  · rintro ⟨C, hC, hle⟩
    obtain rfl : B = some C := hC
    have : C = 0#64 := by
      apply BitVec.eq_of_toNat_eq
      simpa using hle
    rw [this]
  · rintro rfl
    exact ⟨0#64, rfl, by simp⟩

/-- With no cancel pending and no budget reached, the boundary check does nothing (R146). -/
theorem boundaryCheck_eq_self {s : State} (h1 : s.cancelPending = false) (h2 : s.budgetReached = false) :
    boundaryCheck s = s := by
  simp [boundaryCheck, h1, h2]

/-- The boundary check writes `status`, `err_cursor` and `cancel_pending` at most (R146, R236). -/
theorem boundaryCheck_frame (s : State) : ∃ st ec cp,
    boundaryCheck s = { s with status := st, errCursor := ec, cancelPending := cp } := by
  rcases boundaryCheck_cases s with ⟨_, e⟩ | ⟨_, _, e⟩ | ⟨_, _, e⟩ <;> exact ⟨_, _, _, e⟩

/-- The rest of START writes `status`, `err_cursor` and `cancel_pending` at most (R192, R236). -/
theorem openSession_frame (s : State) : ∃ st ec cp,
    openSession s = { s with status := st, errCursor := ec, cancelPending := cp } := by
  rcases openSession_cases s with ⟨_, e⟩ | ⟨_, _, e⟩ | ⟨_, _, e⟩ <;> exact ⟨_, _, _, e⟩

/-- A cursor that does not overflow is the exact sum (R142, R145). -/
theorem toNat_cursorAfter {s : State} {c : Word} (h : s.cursorAfter c < 2 ^ 64) :
    (BitVec.ofNat 64 (s.cursorAfter c)).toNat = s.cursor.toNat + c.toNat + 1 := by
  rw [BitVec.toNat_ofNat]
  exact Nat.mod_eq_of_lt h

end Sys2Proof.Machine
end

