-- ==== Sys2Proof/Laws/Router.lean ====
section
/-! SUPPORT. What the router computes: the bits of the enabled set, the lane map, and the bits of a placed word. -/

namespace Sys2Proof.Machine

theorem groupEnabled_iff (mask : Word) (g : Nat) :
    groupEnabled mask g = true ↔ ∃ k, k < 8 ∧ mask.getLsbD (8 * g + k) = true := by
  rw [groupEnabled, bne_iff_ne]
  constructor
  · intro h
    by_contra hno
    push Not at hno
    apply h
    apply BitVec.eq_of_getLsbD_eq
    intro k hk
    have := hno k hk
    simp only [getLsbD_byteAt, BitVec.getLsbD_zero]
    simp_all
  · rintro ⟨k, hk, hb⟩ h0
    have : (byteAt g mask).getLsbD k = false := by rw [h0]; simp
    rw [getLsbD_byteAt] at this
    simp_all

theorem getLsbD_groups (mask : Word) {g : Nat} (hg : g < 4) : (groups mask).getLsbD g = groupEnabled mask g := by
  have : g = 0 ∨ g = 1 ∨ g = 2 ∨ g = 3 := by omega
  rw [groups, BitVec.getLsbD_ofBoolListLE]
  rcases this with rfl | rfl | rfl | rfl <;> rfl

theorem popcount_eq_zero_iff : ∀ G : Groups, popcount G = 0 ↔ G = 0#4 := by decide

theorem width_val (mask : Word) : (width mask).val = popcount (groups mask) := rfl

/-- Only the zero mask enables no group (R102). -/
theorem groups_eq_zero_iff (mask : Word) : groups mask = 0#4 ↔ mask = 0#32 := by
  constructor
  · intro h
    apply BitVec.eq_of_getLsbD_eq
    intro i hi
    have hg : (groups mask).getLsbD (i / 8) = false := by rw [h]; simp
    rw [getLsbD_groups mask (by omega)] at hg
    have hno : ¬ groupEnabled mask (i / 8) = true := by simp [hg]
    rw [groupEnabled_iff] at hno
    push Not at hno
    have := hno (i % 8) (by omega)
    rw [show 8 * (i / 8) + i % 8 = i by omega] at this
    simpa using this
  · rintro rfl
    decide

theorem width_eq_zero_iff (mask : Word) : (width mask).val = 0 ↔ mask = 0#32 := by
  rw [width_val, popcount_eq_zero_iff, groups_eq_zero_iff]

/-! ### The lane map -/

theorem length_lanes : ∀ G : Groups, (lanes G).length = popcount G := by decide

theorem mem_lanes (G : Groups) (g : Nat) : g ∈ lanes G ↔ g < 4 ∧ G.getLsbD g = true := by
  simp [lanes]

theorem lanes_sorted (G : Groups) : (lanes G).Pairwise (· < ·) := List.Pairwise.filter _ (by decide)

theorem lane_eq_some {G : Groups} {i g : Nat} (h : lane G i = some g) : g ∈ lanes G := List.mem_of_getElem? h

theorem lane_isSome_iff (G : Groups) (i : Nat) : (∃ g, lane G i = some g) ↔ i < popcount G := by
  rw [← length_lanes]
  constructor
  · rintro ⟨g, h⟩
    exact (List.getElem?_eq_some_iff.mp h).1
  · intro h
    exact ⟨_, List.getElem?_eq_getElem h⟩

/-! ### Placement -/

/-- A group that no remaining lane goes to is 0. -/
theorem getLsbD_routeFrom_of_notMem {ls : List Nat} {g : Nat} (hg : g ∉ ls) (i : Nat) (word : Word) {k : Nat}
    (hk : k < 8) : (routeFrom ls i word).getLsbD (8 * g + k) = false := by
  induction ls generalizing i with
  | nil => simp [routeFrom]
  | cons h ls ih =>
    rw [List.mem_cons, not_or] at hg
    rw [routeFrom, BitVec.getLsbD_or, ih hg.2, getLsbD_inLane, getLsbD_byteAt, Bool.or_false]
    by_cases hle : 8 * h ≤ 8 * g + k
    · have : ¬ 8 * g + k - 8 * h < 8 := by omega
      simp [this]
    · simp [hle]

/-- Lane `i + j` goes to the `j`-th listed group. -/
theorem getLsbD_routeFrom {ls : List Nat} (hs : ls.Pairwise (· < ·)) (hlt : ∀ g ∈ ls, g < 4) (i : Nat) (word : Word)
    {j g k : Nat} (hj : ls[j]? = some g) (hk : k < 8) :
    (routeFrom ls i word).getLsbD (8 * g + k) = word.getLsbD (8 * (i + j) + k) := by
  induction ls generalizing i j with
  | nil => simp at hj
  | cons h ls ih =>
    rw [List.pairwise_cons] at hs
    rw [routeFrom, BitVec.getLsbD_or, getLsbD_inLane, getLsbD_byteAt]
    cases j with
    | zero =>
      obtain rfl : h = g := by simpa using hj
      have hnot : h ∉ ls := fun hm => Nat.lt_irrefl _ (hs.1 h hm)
      have h32 : 8 * h + k < 32 := by
        have := hlt h (by simp)
        omega
      have h1 : 8 * h + k - 8 * h = k := by omega
      have h2 : 8 * h ≤ 8 * h + k := by omega
      rw [getLsbD_routeFrom_of_notMem hnot _ _ hk, Bool.or_false, h1]
      simp [h32, hk, -BitVec.getLsbD_eq_getElem]
    | succ j =>
      have hg : g ∈ ls := List.mem_of_getElem? (by simpa using hj)
      have hlt' := hs.1 g hg
      have h1 : ¬ 8 * g + k - 8 * h < 8 := by omega
      rw [ih hs.2 (fun g hg => hlt g (by simp [hg])) (i + 1) (j := j) (by simpa using hj)]
      rw [show i + 1 + j = i + (j + 1) by omega]
      simp [h1]

/-- ROUTED placement: byte `i` at the bit positions of group `lane(i)` (R104). -/
theorem getLsbD_place_routed {G : Groups} {i g k : Nat} (h : lane G i = some g) (hk : k < 8) (word : Word) :
    (place .routed G word).getLsbD (8 * g + k) = word.getLsbD (8 * i + k) := by
  rw [place, getLsbD_routeFrom (lanes_sorted G) (fun g hg => ((mem_lanes G g).mp hg).1) 0 word h hk, Nat.zero_add]

/-- ROUTED placement leaves a disabled group 0 (R104). -/
theorem getLsbD_place_routed_disabled {G : Groups} {g k : Nat} (h : G.getLsbD g = false) (hk : k < 8) (word : Word) :
    (place .routed G word).getLsbD (8 * g + k) = false :=
  getLsbD_routeFrom_of_notMem (fun hm => by simp [((mem_lanes G g).mp hm).2] at h) 0 word hk

/-- The top channel is bit `8W-1` of the word, the RUN flag's place, under either placement (R106). -/
theorem getLsbD_place_topBit {p : GroupPlacement} {G : Groups} {t : Nat} (h : topBit p G = some t) (word : Word) :
    (place p G word).getLsbD t = runFlag (popcount G) word := by
  cases p with
  | compact =>
    simp only [topBit] at h
    split at h
    · cases h
    · cases h
      rfl
  | routed =>
    obtain ⟨g, hg, rfl⟩ := Option.map_eq_some_iff.mp h
    have hlt : popcount G - 1 < popcount G := (lane_isSome_iff G _).mp ⟨g, hg⟩
    rw [getLsbD_place_routed hg (by omega), runFlag]
    congr 1
    omega

end Sys2Proof.Machine
end

