-- ==== Sys2Proof/Laws/Exec.lean ====
section
/-! SUPPORT. The meaning of each instruction in the terms of the shared operations, what a step can do, and how the
framer meets the decoder. -/

namespace Sys2Proof.Machine

/-! ### Rows by width -/

theorem sampleRow_cases {n : Nat} {row : Word → Instr} (h : sampleRow n = some row) :
    (n = 1 ∧ row = .sampleW1) ∨ (n = 2 ∧ row = .sampleW2) ∨ (n = 3 ∧ row = .sampleW3) ∨ (n = 4 ∧ row = .sampleW4) := by
  unfold sampleRow at h
  split at h <;> simp_all

theorem runRow_cases {n : Nat} {row : Word → Instr} (h : runRow n = some row) :
    (n = 1 ∧ row = .runW1) ∨ (n = 2 ∧ row = .runW2) ∨ (n = 3 ∧ row = .runW3) ∨ (n = 4 ∧ row = .runW4) := by
  unfold runRow at h
  split at h <;> simp_all

/-- Every SAMPLE row is the decoder in a session of its width. -/
theorem exec_sampleRow {n : Nat} {row : Word → Instr} (h : sampleRow n = some row) (v : Word) (s : State) :
    exec (row v) s = inSessionOfWidth n (decodeSample v) s := by
  rcases sampleRow_cases h with ⟨rfl, rfl⟩ | ⟨rfl, rfl⟩ | ⟨rfl, rfl⟩ | ⟨rfl, rfl⟩ <;> rfl

/-- Every RUN row is the decoder in a session of its width. -/
theorem exec_runRow {n : Nat} {row : Word → Instr} (h : runRow n = some row) (c : Word) (s : State) :
    exec (row c) s = inSessionOfWidth n (decodeRun c) s := by
  rcases runRow_cases h with ⟨rfl, rfl⟩ | ⟨rfl, rfl⟩ | ⟨rfl, rfl⟩ | ⟨rfl, rfl⟩ <;> rfl

/-- Every instruction is a SAMPLE row, a RUN row or one of the five events. -/
theorem instr_cases (i : Instr) :
    (∃ n row v, sampleRow n = some row ∧ i = row v) ∨ (∃ n row c, runRow n = some row ∧ i = row c) ∨
    i = .reset ∨ (∃ m B, i = .start m B) ∨ (∃ b, i = .byte b) ∨ i = .eos ∨ i = .cancel := by
  cases i with
  | sampleW1 v => exact .inl ⟨1, _, v, rfl, rfl⟩
  | sampleW2 v => exact .inl ⟨2, _, v, rfl, rfl⟩
  | sampleW3 v => exact .inl ⟨3, _, v, rfl, rfl⟩
  | sampleW4 v => exact .inl ⟨4, _, v, rfl, rfl⟩
  | runW1 c => exact .inr (.inl ⟨1, _, c, rfl, rfl⟩)
  | runW2 c => exact .inr (.inl ⟨2, _, c, rfl, rfl⟩)
  | runW3 c => exact .inr (.inl ⟨3, _, c, rfl, rfl⟩)
  | runW4 c => exact .inr (.inl ⟨4, _, c, rfl, rfl⟩)
  | reset => simp
  | start m B => exact .inr (.inr (.inr (.inl ⟨m, B, rfl⟩)))
  | byte b => exact .inr (.inr (.inr (.inr (.inl ⟨b, rfl⟩))))
  | eos => simp
  | cancel => simp

/-- A word row is no event (R78, R81). -/
theorem not_isEvent_of_row {n : Nat} {row : Word → Instr} (h : sampleRow n = some row ∨ runRow n = some row) (w : Word) :
    ¬ isEvent (row w) := by
  rintro ⟨e, he⟩
  rcases h with h | h
  · rcases sampleRow_cases h with ⟨rfl, rfl⟩ | ⟨rfl, rfl⟩ | ⟨rfl, rfl⟩ | ⟨rfl, rfl⟩ <;> cases he
  · rcases runRow_cases h with ⟨rfl, rfl⟩ | ⟨rfl, rfl⟩ | ⟨rfl, rfl⟩ | ⟨rfl, rfl⟩ <;> cases he

/-! ### What an instruction can do -/

/-- What a word leaves behind in its session: an error with none of its effect, or its effect and the boundary
check (R151, R243). -/
inductive WordEffect (s : State) : State → Prop where
  | full (h : s.params.traceCapacity = some s.recCount) : WordEffect s (raise .capacity s)
  | sampled (w : Word) (h : s.params.traceCapacity ≠ some s.recCount) :
      WordEffect s (boundaryCheck
        { s with trace := s.trace ++ [⟨sampleValue s w, s.cursor⟩], lastValid := true, lastValue := sampleValue s w })
  | first (h : s.lastValid = false) : WordEffect s (raise .protocol s)
  | overflow (h : s.lastValid = true) : WordEffect s (raise .cursorOverflow s)
  | advanced (c : Word) (h : s.lastValid = true) (fits : s.cursorAfter c < 2 ^ 64) :
      WordEffect s (boundaryCheck { s with cursor := BitVec.ofNat 64 (s.cursorAfter c) })

theorem wordEffect_sample (v : Word) (s : State) : WordEffect s (decodeSample v s) := by
  unfold decodeSample
  rcases processClass_sample (sampleValue s v) s with ⟨h, e⟩ | ⟨h, e⟩ <;> rw [e]
  · exact .full ((traceFull_iff s).mp h)
  · exact .sampled v ((traceFull_eq_false_iff s).mp h)

theorem wordEffect_run (c : Word) (s : State) : WordEffect s (decodeRun c s) := by
  unfold decodeRun
  rcases processClass_run c s with ⟨h, e⟩ | ⟨h, _, e⟩ | ⟨h, hf, e⟩ <;> rw [e]
  · exact .first h
  · exact .overflow h
  · exact .advanced c h hf

theorem wordEffect_processWord (n : Nat) (w : Word) (s : State) : WordEffect s (processWord n w s) := by
  unfold processWord classify
  split
  · exact wordEffect_run _ s
  · exact wordEffect_sample w s

/-- What a word never touches (R151). -/
theorem WordEffect.frame {s t : State} (h : WordEffect s t) :
    t.cfgMask = s.cfgMask ∧ t.cfgGroups = s.cfgGroups ∧ t.cfgWidth = s.cfgWidth ∧ t.cfgBudget = s.cfgBudget ∧
    t.params = s.params ∧ t.inbox = s.inbox ∧ t.waAcc = s.waAcc ∧ t.waCount = s.waCount ∧
    t.bytesConsumed = s.bytesConsumed := by
  cases h with
  | full h => simp
  | first h => simp
  | overflow h => simp
  | sampled w h => obtain ⟨_, _, _, e⟩ := boundaryCheck_frame _; rw [e]; simp
  | advanced c h hf => obtain ⟨_, _, _, e⟩ := boundaryCheck_frame _; rw [e]; simp

/-- What a word does to the buffer: nothing, or one record at its end (R53, R141, R171). -/
theorem WordEffect.trace {s t : State} (h : WordEffect s t) :
    t.trace = s.trace ∨ (t.trace = s.trace ++ [⟨t.lastValue, s.cursor⟩] ∧ t.lastValid = true ∧ t.cursor = s.cursor) := by
  cases h with
  | full h => exact .inl rfl
  | first h => exact .inl rfl
  | overflow h => exact .inl rfl
  | sampled w h => obtain ⟨_, _, _, e⟩ := boundaryCheck_frame _; rw [e]; exact .inr ⟨rfl, rfl, rfl⟩
  | advanced c h hf => obtain ⟨_, _, _, e⟩ := boundaryCheck_frame _; rw [e]; exact .inl rfl

/-- Everything an instruction that answers a next state can have done (R190). -/
inductive InstrEffect (s : State) : Instr → State → Prop where
  | ignored (i : Instr) : i ≠ .reset → InstrEffect s i s
  | word (n : Nat) (row : Word → Instr) (w : Word) (t : State) (isRow : sampleRow n = some row ∨ runRow n = some row)
      (run : s.status = .decoding) (width : s.cfgWidth.val = n) (effect : WordEffect s t) : InstrEffect s (row w) t
  | reset : InstrEffect s .reset { State.reset with params := s.params, inbox := s.inbox }
  | started (m : Word) (B : Option Time) (out : s.status ≠ .decoding) :
      InstrEffect s (.start m B) (openSession (loadSession m B s))
  | kept (b : Byte) (run : s.status = .decoding) (more : s.waCount.val + 1 < s.cfgWidth.val) :
      InstrEffect s (.byte b) (keepByte b s)
  | completed (b : Byte) (t : State) (run : s.status = .decoding) (final : s.cfgWidth.val ≤ s.waCount.val + 1)
      (result : t = processWord s.cfgWidth.val (completedWord b s) (closeWord s))
      (effect : WordEffect (closeWord s) t) : InstrEffect s (.byte b) t
  | ended (run : s.status = .decoding) (boundary : s.waCount.val = 0) : InstrEffect s .eos (finish .eos s)
  | truncated (run : s.status = .decoding) (inside : 0 < s.waCount.val) : InstrEffect s .eos (raise .corruptStream s)
  | cancelled (run : s.status = .decoding) (boundary : s.waCount.val = 0) : InstrEffect s .cancel (raise .cancelled s)
  | latched (run : s.status = .decoding) (inside : 0 < s.waCount.val) :
      InstrEffect s .cancel { s with cancelPending := true }

theorem exec_next_effect {i : Instr} {s t : State} (h : exec i s = .next t) : InstrEffect s i t := by
  rcases instr_cases i with ⟨n, row, v, hr, rfl⟩ | ⟨n, row, c, hr, rfl⟩ | rfl | ⟨m, B, rfl⟩ | ⟨b, rfl⟩ | rfl | rfl
  · rw [exec_sampleRow hr] at h
    rcases inSessionOfWidth_next h with ⟨hd, hw, rfl⟩ | ⟨_, rfl⟩
    · exact .word n row v _ (.inl hr) hd hw (wordEffect_sample v s)
    · refine .ignored _ ?_
      rcases sampleRow_cases hr with ⟨rfl, rfl⟩ | ⟨rfl, rfl⟩ | ⟨rfl, rfl⟩ | ⟨rfl, rfl⟩ <;> simp
  · rw [exec_runRow hr] at h
    rcases inSessionOfWidth_next h with ⟨hd, hw, rfl⟩ | ⟨_, rfl⟩
    · exact .word n row c _ (.inr hr) hd hw (wordEffect_run c s)
    · refine .ignored _ ?_
      rcases runRow_cases hr with ⟨rfl, rfl⟩ | ⟨rfl, rfl⟩ | ⟨rfl, rfl⟩ | ⟨rfl, rfl⟩ <;> simp
  · cases h
    exact .reset
  · simp only [exec, execStart] at h
    split at h <;> cases h
    · exact .ignored _ (by simp)
    · exact .started m B ‹_›
  · simp only [exec, execByte] at h
    split at h <;> cases h
    · rcases takeByte_cases b s with ⟨hm, e⟩ | ⟨hf, e⟩
      · rw [e]; exact .kept b ‹_› hm
      · exact .completed b _ ‹_› hf e (e ▸ wordEffect_processWord _ _ _)
    · exact .ignored _ (by simp)
  · simp only [exec, execEos] at h
    split at h
    · split at h <;> cases h
      · exact .ended ‹_› ‹_›
      · exact .truncated ‹_› (by omega)
    · cases h; exact .ignored _ (by simp)
  · simp only [exec, execCancel] at h
    split at h
    · split at h <;> cases h
      · exact .cancelled ‹_› ‹_›
      · exact .latched ‹_› (by omega)
    · cases h; exact .ignored _ (by simp)

/-- A step that answers a next state waited for the host, or ran the oldest event on the state with it taken. -/
theorem step_next {s t : State} (h : step s = .next t) :
    (s.inbox = [] ∧ t = s) ∨
    ∃ e es i, s.inbox = e :: es ∧ decodeEvent e = .ok i ∧ exec i { s with inbox := es } = .next t := by
  unfold step nextEvent at h
  cases hi : s.inbox with
  | nil =>
    simp only [hi] at h
    cases h
    exact .inl ⟨rfl, rfl⟩
  | cons e es =>
    simp only [hi] at h
    cases hd : decodeEvent e with
    | error x => rw [hd] at h; cases h
    | ok i => rw [hd] at h; exact .inr ⟨e, es, i, rfl, hd, h⟩

/-- What an event decodes to is an event row (R78). -/
theorem isEvent_of_decodeEvent {e : HostEvent} {i : Instr} (h : decodeEvent e = .ok i) : isEvent i := by
  unfold decodeEvent at h
  split at h <;> cases h <;> exact ⟨_, rfl⟩

/-! ### The framer and the decoder -/

/-- What the decoder of Decode.lean makes of a word of the session's width is what the framer's classifier makes of it
(R125, R151). -/
theorem exec_decodeWordValue {n : Nat} {word : Word} {i : Instr} (h : decodeWordValue n word = .ok i) {s : State}
    (hd : s.status = .decoding) (hw : s.cfgWidth.val = n) : exec i s = .next (processWord n word s) := by
  unfold decodeWordValue at h
  split at h <;> cases h
  all_goals
    unfold processWord classify
    split <;> simp [exec, execSampleW1, execSampleW2, execSampleW3, execSampleW4, execRunW1, execRunW2, execRunW3,
      execRunW4, inSessionOfWidth, hd, hw, decodeSample, decodeRun]

/-- A word of 1 to 4 bytes decodes (R76). -/
theorem decodeWordValue_isOk {n : Nat} (h1 : 1 ≤ n) (h4 : n ≤ 4) (word : Word) :
    ∃ i, decodeWordValue n word = .ok i := by
  have : n = 1 ∨ n = 2 ∨ n = 3 ∨ n = 4 := by omega
  rcases this with rfl | rfl | rfl | rfl <;> exact ⟨_, rfl⟩

/-- With a clean part-received word, the completed word is that of the bytes received (R26, R71, R120). -/
theorem completedWord_eq {s : State} {b : Byte} (hc : s.partialWordClean) (hf : s.lastByteNext) :
    completedWord b s = wireWord (wordBytes s.waCount.val s.waAcc ++ [b]) := by
  have hlen : (wordBytes s.waCount.val s.waAcc ++ [b]).length = s.cfgWidth.val := by simpa using hf
  have hacc : accumulate s b = wireWord (wordBytes s.waCount.val s.waAcc ++ [b]) := by
    rw [wireWord_append, wireWord_wordBytes, lowBits_of_lt hc, length_wordBytes]
    rfl
  rw [completedWord, hacc, lowBits_of_lt (hlen ▸ wireWord_lt _)]

/-- The flag of the completed word is the top bit of the byte that completes it (R122). -/
theorem runFlag_completedWord {s : State} {b : Byte} (hc : s.partialWordClean) (hf : s.lastByteNext) :
    runFlag s.cfgWidth.val (completedWord b s) = b.getLsbD 7 := by
  have hlt := s.waCount.isLt
  have hf' : s.waCount.val + 1 = s.cfgWidth.val := hf
  have h0 : s.waAcc.getLsbD (8 * s.cfgWidth.val - 1) = false := getLsbD_of_toNat_lt hc (by omega)
  have h1 : 8 * s.cfgWidth.val - 1 < 32 := by omega
  have h2 : 8 * s.waCount.val ≤ 8 * s.cfgWidth.val - 1 := by omega
  have h3 : 8 * s.cfgWidth.val - 1 - 8 * s.waCount.val = 7 := by omega
  have h4 : 8 * s.cfgWidth.val - 1 < 8 * s.cfgWidth.val := by omega
  rw [runFlag, completedWord, getLsbD_lowBits, accumulate, BitVec.getLsbD_or, h0, getLsbD_inLane, h3]
  simp [h1, h2, h4]

/-- The count of the completed word is read from the bytes as received (R123). -/
theorem runPayload_completedWord (s : State) (b : Byte) :
    runPayload s.cfgWidth.val (completedWord b s) = runCountNext s b := by
  apply BitVec.eq_of_getLsbD_eq
  intro i _
  rw [runCountNext, runPayload, runPayload, getLsbD_lowBits, getLsbD_lowBits, completedWord, getLsbD_lowBits]
  by_cases h : i < 8 * s.cfgWidth.val - 1
  · have : i < 8 * s.cfgWidth.val := by omega
    simp [h, this]
  · simp [h]

/-- The word a final byte completes goes to the decoder as RUN or SAMPLE by the top bit of that byte (R122, R125). -/
theorem processWord_completedWord (s : State) (b : Byte) (hc : s.partialWordClean) (hf : s.lastByteNext) :
    (b.getLsbD 7 = true ∧ processWord s.cfgWidth.val (completedWord b s) (closeWord s) =
      processClass (.run (runCountNext s b)) (closeWord s)) ∨
    (b.getLsbD 7 = false ∧ processWord s.cfgWidth.val (completedWord b s) (closeWord s) =
      processClass (.sample (sampleValue s (completedWord b s))) (closeWord s)) := by
  unfold processWord classify
  rw [runFlag_completedWord hc hf, runPayload_completedWord]
  cases b.getLsbD 7
  · exact .inr ⟨rfl, rfl⟩
  · exact .inl ⟨rfl, rfl⟩

/-- One step of a run. -/
theorem run_step (k : Nat) {s t : State} (h : step s = .next t) :
    Host.Core.run Sys2Proof.core (k + 1) s = Host.Core.run Sys2Proof.core k t := by
  have h1 : Sys2Proof.core.step s = .next t := h
  simp only [Host.Core.run, h1]

end Sys2Proof.Machine
end

