-- ==== Sys2Proof/Laws/Invariant.lean ====
section
/-! SUPPORT. Each shared operation keeps the invariants of R37 (`BlockInv` of Safety.lean). -/

namespace Sys2Proof.Machine

/-- The parts of `BlockInv` that do not look at the status: what a step still has between its first write and its last. -/
structure SessionFacts (s : State) : Prop where
  routed          : s.cfgGroups = groups s.cfgMask ∧ s.cfgWidth = width s.cfgMask
  timesSorted     : s.trace.Pairwise fun r r' => r.time.toNat ≤ r'.time.toNat
  firstAtZero     : ∀ r, s.trace.head? = some r → r.time = 0#64
  timesPast       : ∀ r ∈ s.trace, r.time.toNat ≤ s.cursor.toNat
  tagMatchesTrace : s.lastValid = true ↔ 0 < s.recCount
  valuesMasked    : ∀ r ∈ s.trace, r.value &&& ~~~s.cfgMask = 0#32
  topChannelClear : ∀ r ∈ s.trace, ∀ t, topBit s.params.groupPlacement s.cfgGroups = some t → r.value.getLsbD t = false
  withinCapacity  : ∀ n, s.params.traceCapacity = some n → s.recCount ≤ n
  partialClean    : s.partialWordClean
  beforeFirst     : s.lastValid = false → s.lastValue = 0#32 ∧ s.cursor = 0#64

theorem BlockInv.sessionFacts {s} (h : BlockInv s) : SessionFacts s :=
  ⟨h.routed, h.timesSorted, h.firstAtZero, h.timesPast, h.tagMatchesTrace, h.valuesMasked, h.topChannelClear, h.withinCapacity, h.partialClean, h.beforeFirst⟩

/-- Entering an error keeps the invariant (R236). -/
theorem raise_inv {s} (h : SessionFacts s) (e : ErrorStatus) : BlockInv (raise e s) where
  routed := h.routed
  session := by intro hd; cases hd
  cancelMidWord := by intro hd; cases hd
  timesSorted := h.timesSorted
  firstAtZero := h.firstAtZero
  timesPast := h.timesPast
  tagMatchesTrace := h.tagMatchesTrace
  budgetAhead := by intro hd; cases hd
  valuesMasked := h.valuesMasked
  topChannelClear := h.topChannelClear
  withinCapacity := h.withinCapacity
  partialClean := h.partialClean
  beforeFirst := h.beforeFirst
  firstWord := by intro hd; cases hd
  noErrorYet := by intro hd; cases hd

/-- Publishing keeps it (R174). -/
theorem finish_inv {s} (h : SessionFacts s) (d : DoneStatus) (hc : s.cancelPending = false) (he : s.errCursor = 0#64) : BlockInv (finish d s) where
  routed := h.routed
  session := by intro hd; cases hd
  cancelMidWord := by intro hd; rw [finish_cancelPending, hc] at hd; cases hd
  timesSorted := h.timesSorted
  firstAtZero := h.firstAtZero
  timesPast := h.timesPast
  tagMatchesTrace := h.tagMatchesTrace
  budgetAhead := by intro hd; cases hd
  valuesMasked := h.valuesMasked
  topChannelClear := h.topChannelClear
  withinCapacity := h.withinCapacity
  partialClean := h.partialClean
  beforeFirst := h.beforeFirst
  firstWord := by intro hd; cases hd
  noErrorYet := fun _ => he

/-- The boundary check restores the whole of it after a word (R146). -/
theorem boundaryCheck_inv {s} (h : SessionFacts s) (hw : 1 ≤ s.cfgWidth.val) (h0 : s.waCount.val = 0) (hv : s.lastValid = true) (he : s.errCursor = 0#64) : BlockInv (boundaryCheck s) := by
  rcases boundaryCheck_cases s with ⟨_, e⟩ | ⟨hc, _, e⟩ | ⟨hc, hb, e⟩ <;> rw [e]
  · exact raise_inv h _
  · exact finish_inv h _ hc he
  · exact {
      routed := h.routed
      session := fun _ => ⟨hw, by omega⟩
      cancelMidWord := by intro hd; rw [hc] at hd; cases hd
      timesSorted := h.timesSorted
      firstAtZero := h.firstAtZero
      timesPast := h.timesPast
      tagMatchesTrace := h.tagMatchesTrace
      budgetAhead := fun _ => (budgetReached_eq_false_iff s).mp hb
      valuesMasked := h.valuesMasked
      topChannelClear := h.topChannelClear
      withinCapacity := h.withinCapacity
      partialClean := h.partialClean
      beforeFirst := h.beforeFirst
      firstWord := by intro _ hd; rw [hv] at hd; cases hd
      noErrorYet := fun _ => he }

/-- Completing a word clears the unpacker (R121). -/
theorem closeWord_facts {s} (h : SessionFacts s) : SessionFacts (closeWord s) where
  routed := h.routed
  timesSorted := h.timesSorted
  firstAtZero := h.firstAtZero
  timesPast := h.timesPast
  tagMatchesTrace := h.tagMatchesTrace
  valuesMasked := h.valuesMasked
  topChannelClear := h.topChannelClear
  withinCapacity := h.withinCapacity
  partialClean := by show (0#32).toNat < _; simp
  beforeFirst := h.beforeFirst

/-- A SAMPLE word with the flag clear (R141). -/
theorem sampled_facts {s} (h : SessionFacts s) (hfull : s.params.traceCapacity ≠ some s.recCount) {w : Word} (hf : runFlag s.cfgWidth.val w = false) :
    SessionFacts { s with trace := s.trace ++ [⟨sampleValue s w, s.cursor⟩], lastValid := true, lastValue := sampleValue s w } where
  routed := h.routed
  timesSorted := by
    show List.Pairwise _ (s.trace ++ _)
    rw [List.pairwise_append]
    exact ⟨h.timesSorted, by simp, fun a ha b hb => by simp at hb; subst hb; exact h.timesPast a ha⟩
  firstAtZero := by
    intro r hr
    cases ht : s.trace with
    | nil =>
      have : s.lastValid = false := by
        have := h.tagMatchesTrace
        simp only [State.recCount, ht, List.length_nil, Nat.lt_irrefl, iff_false, Bool.not_eq_true] at this
        exact this
      simp only [ht, List.nil_append, List.head?_cons, Option.some.injEq] at hr
      rw [← hr]; exact (h.beforeFirst this).2
    | cons a l =>
      simp only [ht, List.cons_append, List.head?_cons, Option.some.injEq] at hr
      rw [← hr]
      exact h.firstAtZero a (by simp [ht])
  timesPast := by
    intro r hr
    simp only [List.mem_append, List.mem_singleton] at hr
    rcases hr with hr | rfl
    · exact h.timesPast r hr
    · exact Nat.le_refl _
  tagMatchesTrace := by simp [State.recCount]
  valuesMasked := by
    intro r hr
    simp only [List.mem_append, List.mem_singleton] at hr
    rcases hr with hr | rfl
    · exact h.valuesMasked r hr
    · simp [sampleValue, BitVec.and_assoc]
  topChannelClear := by
    intro r hr t ht
    simp only [List.mem_append, List.mem_singleton] at hr
    rcases hr with hr | rfl
    · exact h.topChannelClear r hr t ht
    · have hw : popcount s.cfgGroups = s.cfgWidth.val := by rw [h.routed.1, h.routed.2, width_val]
      simp only [sampleValue]
      rw [BitVec.getLsbD_and, getLsbD_place_topBit ht, hw, hf, Bool.false_and]
  withinCapacity := by
    intro n hn
    have h1 := h.withinCapacity n hn
    have h2 : n ≠ s.recCount := fun e => hfull (e ▸ hn)
    simp only [State.recCount, List.length_append, List.length_singleton] at *
    omega
  partialClean := h.partialClean
  beforeFirst := by intro hd; cases hd

/-- A RUN word that takes effect (R142). -/
theorem advanced_facts {s} (h : SessionFacts s) (hv : s.lastValid = true) {c : Word} (hc : s.cursorAfter c < 2 ^ 64) :
    SessionFacts { s with cursor := BitVec.ofNat 64 (s.cursorAfter c) } where
  routed := h.routed
  timesSorted := h.timesSorted
  firstAtZero := h.firstAtZero
  timesPast := by
    intro r hr
    have := h.timesPast r hr
    have hm : (BitVec.ofNat 64 (s.cursorAfter c)).toNat = s.cursorAfter c := by
      rw [BitVec.toNat_ofNat]; exact Nat.mod_eq_of_lt hc
    show r.time.toNat ≤ (BitVec.ofNat 64 (s.cursorAfter c)).toNat
    rw [hm]; unfold State.cursorAfter; omega
  tagMatchesTrace := h.tagMatchesTrace
  valuesMasked := h.valuesMasked
  topChannelClear := h.topChannelClear
  withinCapacity := h.withinCapacity
  partialClean := h.partialClean
  beforeFirst := by intro hd; rw [hv] at hd; cases hd

/-- A word of the session (R151). -/
theorem processWord_inv {s : State} (h : SessionFacts s) (hw : 1 ≤ s.cfgWidth.val) (h0 : s.waCount.val = 0) (he : s.errCursor = 0#64) (w : Word) :
    BlockInv (processWord s.cfgWidth.val w s) := by
  unfold processWord classify
  split
  · rcases processClass_run (runPayload s.cfgWidth.val w) s with ⟨_, e⟩ | ⟨_, _, e⟩ | ⟨hv, hc, e⟩ <;> rw [e]
    · exact raise_inv h _
    · exact raise_inv h _
    · exact boundaryCheck_inv (advanced_facts h hv hc) hw h0 hv he
  · rename_i hf
    rcases processClass_sample (sampleValue s w) s with ⟨_, e⟩ | ⟨hf', e⟩ <;> rw [e]
    · exact raise_inv h _
    · exact boundaryCheck_inv (sampled_facts h ((traceFull_eq_false_iff s).mp hf') (by simpa using hf)) hw h0 rfl he

/-- A byte inside a word (R120). -/
theorem keepByte_inv {s : State} (h : BlockInv s) (hs : s.status = .decoding) (b : Byte) (hm : s.waCount.val + 1 < s.cfgWidth.val) : BlockInv (keepByte b s) where
  routed := h.routed
  session := fun _ => by rw [keepByte_waCount_val hm, keepByte_cfgWidth]; omega
  cancelMidWord := fun _ => by rw [keepByte_waCount_val hm]; exact ⟨hs, by omega⟩
  timesSorted := h.timesSorted
  firstAtZero := h.firstAtZero
  timesPast := h.timesPast
  tagMatchesTrace := h.tagMatchesTrace
  budgetAhead := h.budgetAhead
  valuesMasked := h.valuesMasked
  topChannelClear := h.topChannelClear
  withinCapacity := h.withinCapacity
  partialClean := by
    unfold State.partialWordClean
    rw [keepByte_waCount_val hm, keepByte_waAcc, accumulate]
    apply toNat_lt_of_getLsbD
    intro i hi
    have h1 : s.waAcc.getLsbD i = false := getLsbD_of_toNat_lt h.partialClean (by omega)
    have h2 : b.getLsbD (i - 8 * s.waCount.val) = false := BitVec.getLsbD_of_ge b _ (by omega)
    rw [BitVec.getLsbD_or, h1, getLsbD_inLane, h2]; simp
  beforeFirst := h.beforeFirst
  firstWord := fun _ hv => by
    have := h.firstWord hs hv
    have h4 := s.waCount.isLt
    rw [keepByte_waCount_val hm, keepByte_bytesConsumed, BitVec.toNat_add, this]
    simp only [BitVec.toNat_ofNat]; omega
  noErrorYet := h.noErrorYet

/-- The elements START sets (R192). -/
theorem loadSession_facts (m B s) : SessionFacts (loadSession m B s) where
  routed := ⟨rfl, rfl⟩
  timesSorted := List.Pairwise.nil
  firstAtZero := by intro r hr; cases hr
  timesPast := by intro r hr; cases hr
  tagMatchesTrace := by simp [State.recCount]
  valuesMasked := by intro r hr; cases hr
  topChannelClear := by intro r hr; cases hr
  withinCapacity := by intro n _; simp [State.recCount]
  partialClean := by show (0#32).toNat < _; simp
  beforeFirst := fun _ => ⟨rfl, rfl⟩

/-- START (R192). -/
theorem openSession_inv (m B s) : BlockInv (openSession (loadSession m B s)) := by
  rcases openSession_cases (loadSession m B s) with ⟨_, e⟩ | ⟨_, _, e⟩ | ⟨hw, hb, e⟩ <;> rw [e]
  · exact raise_inv (loadSession_facts m B s) _
  · exact finish_inv (loadSession_facts m B s) .budget rfl rfl
  · have h := loadSession_facts m B s
    exact {
      routed := ⟨rfl, rfl⟩
      session := fun _ => by
        have h0 : (loadSession m B s).waCount.val = 0 := rfl
        exact ⟨Nat.pos_of_ne_zero hw, h0 ▸ Nat.pos_of_ne_zero hw⟩
      cancelMidWord := by intro hd; cases hd
      timesSorted := h.timesSorted
      firstAtZero := h.firstAtZero
      timesPast := h.timesPast
      tagMatchesTrace := h.tagMatchesTrace
      budgetAhead := fun _ => (budgetReached_eq_false_iff _).mp hb
      valuesMasked := h.valuesMasked
      topChannelClear := h.topChannelClear
      withinCapacity := h.withinCapacity
      partialClean := h.partialClean
      beforeFirst := h.beforeFirst
      firstWord := fun _ _ => rfl
      noErrorYet := fun _ => rfl }

end Sys2Proof.Machine
end

