-- ==== Sys2Proof/Laws/PerInstr.lean ====
section
/-! SUPPORT. A statement about every instruction as syntax: the shape of its encoding (R70, R71, R78, R81). -/

namespace Sys2Proof

/-- The bytes of a word row; `none` for an event row. -/
def rowBytes : Instr → Option Nat
  | .sampleW1 _ | .runW1 _ => some 1
  | .sampleW2 _ | .runW2 _ => some 2
  | .sampleW3 _ | .runW3 _ => some 3
  | .sampleW4 _ | .runW4 _ => some 4
  | .reset | .start _ _ | .byte _ | .eos | .cancel => none

/-- A word row is encoded in as many bytes as its width, an event row in an event whose code exists. -/
def Laws.RowShape.Statement (i : Instr) : Prop :=
  match rowBytes i with
  | some n => ∃ bytes, encode i = .word bytes ∧ bytes.length = n
  | none   => ∃ e, encode i = .event e ∧ e.code.toNat < 5

theorem Laws.RowShape.sampleW1 (v : Word) : Laws.RowShape.Statement (.sampleW1 v) := ⟨_, rfl, length_wordBytes _ _⟩
theorem Laws.RowShape.runW1 (c : Word) : Laws.RowShape.Statement (.runW1 c) := ⟨_, rfl, length_wordBytes _ _⟩
theorem Laws.RowShape.sampleW2 (v : Word) : Laws.RowShape.Statement (.sampleW2 v) := ⟨_, rfl, length_wordBytes _ _⟩
theorem Laws.RowShape.runW2 (c : Word) : Laws.RowShape.Statement (.runW2 c) := ⟨_, rfl, length_wordBytes _ _⟩
theorem Laws.RowShape.sampleW3 (v : Word) : Laws.RowShape.Statement (.sampleW3 v) := ⟨_, rfl, length_wordBytes _ _⟩
theorem Laws.RowShape.runW3 (c : Word) : Laws.RowShape.Statement (.runW3 c) := ⟨_, rfl, length_wordBytes _ _⟩
theorem Laws.RowShape.sampleW4 (v : Word) : Laws.RowShape.Statement (.sampleW4 v) := ⟨_, rfl, length_wordBytes _ _⟩
theorem Laws.RowShape.runW4 (c : Word) : Laws.RowShape.Statement (.runW4 c) := ⟨_, rfl, length_wordBytes _ _⟩
theorem Laws.RowShape.reset : Laws.RowShape.Statement .reset := ⟨_, rfl, (by decide : (BitVec.ofNat 3 0).toNat < 5)⟩
theorem Laws.RowShape.start (m : Word) (b : Option Time) : Laws.RowShape.Statement (.start m b) := ⟨_, rfl, (by decide : (BitVec.ofNat 3 1).toNat < 5)⟩
theorem Laws.RowShape.byte (b : Byte) : Laws.RowShape.Statement (.byte b) := ⟨_, rfl, (by decide : (BitVec.ofNat 3 2).toNat < 5)⟩
theorem Laws.RowShape.eos : Laws.RowShape.Statement .eos := ⟨_, rfl, (by decide : (BitVec.ofNat 3 3).toNat < 5)⟩
theorem Laws.RowShape.cancel : Laws.RowShape.Statement .cancel := ⟨_, rfl, (by decide : (BitVec.ofNat 3 4).toNat < 5)⟩

end Sys2Proof
end

