-- ==== Sys2Proof/Tests/Slice0.lean ====
section
/-! SUPPORT. The model's own tests. Expected results are those of spec/95_test_vectors.md (the vector is named) or
worked out by hand from the rule named. `witness_…` theorems meet the hypotheses of the statement they name. -/

namespace Sys2Proof.Machine.Tests

/-! ### Helpers -/

/-- The next state, if there is one. -/
def nextOf : Host.Outcome State Fault Refusal → Option State
  | .next t    => some t
  | .fault _   => none
  | .refused _ => none

/-- The fault, if there is one. -/
def faultOf : Host.Outcome State Fault Refusal → Option Fault
  | .fault f   => some f
  | .next _    => none
  | .refused _ => none

/-- A session just opened by START(mask, budget) (R192). -/
def session (mask : Word) (budget : Option Time) : State :=
  { loadSession mask budget State.reset with status := .decoding }

/-- W = 1, mask 0xFF, after `S 0x2A`. -/
def oneSample : State :=
  { session 0xFF#32 none with lastValid := true, lastValue := 0x2A#32, trace := [⟨0x2A#32, 0#64⟩], bytesConsumed := 1#64 }

/-- W = 2, mask 0xFFFF, after byte `34`. -/
def midWord : State :=
  { session 0xFFFF#32 none with waAcc := 0x34#32, waCount := 1, bytesConsumed := 1#64 }

/-- W = 2, mask 0xFFFF, after `S 0x0001` and byte `00`. -/
def midRun (budget : Option Time) : State :=
  { session 0xFFFF#32 budget with
    waCount := 1, lastValid := true, lastValue := 1#32, trace := [⟨1#32, 0#64⟩], bytesConsumed := 3#64 }

/-- The state of vectors D-6b and D-6c: W = 1 at a large cursor. -/
def late (cursor : Nat) : State := { oneSample with cursor := BitVec.ofNat 64 cursor }

/-- A capacity of `n` records (R7). -/
def withCapacity (n : Nat) (s : State) : State := { s with params := { s.params with traceCapacity := some n } }

/-- `BlockInv` as a check that evaluates. -/
def invCheck (s : State) : Bool :=
  decide (s.cfgGroups = groups s.cfgMask) && decide (s.cfgWidth = width s.cfgMask) &&
  decide (s.status = .decoding → 1 ≤ s.cfgWidth.val ∧ s.waCount.val < s.cfgWidth.val) &&
  decide (s.cancelPending = true → s.status = .decoding ∧ 0 < s.waCount.val) &&
  decide (s.trace.Pairwise fun r r' => r.time.toNat ≤ r'.time.toNat) &&
  s.trace.head?.all (fun r => r.time == 0#64) &&
  decide (∀ r ∈ s.trace, r.time.toNat ≤ s.cursor.toNat) &&
  decide (s.lastValid = true ↔ 0 < s.recCount) &&
  (decide (s.status ≠ .decoding) || s.cfgBudget.all (fun B => decide (s.cursor.toNat < B.toNat))) &&
  decide (∀ r ∈ s.trace, r.value &&& ~~~s.cfgMask = 0#32) &&
  (topBit s.params.groupPlacement s.cfgGroups).all (fun t => decide (∀ r ∈ s.trace, r.value.getLsbD t = false)) &&
  s.params.traceCapacity.all (fun n => decide (s.recCount ≤ n)) &&
  decide s.partialWordClean &&
  decide (s.lastValid = false → s.lastValue = 0#32 ∧ s.cursor = 0#64) &&
  decide (s.status = .decoding → s.lastValid = false → s.bytesConsumed.toNat = s.waCount.val) &&
  decide (s.error = false → s.errCursor = 0#64)

theorem inv_of_check {s : State} (h : invCheck s = true) : BlockInv s := by
  simp only [invCheck, Bool.and_eq_true, Bool.or_eq_true, decide_eq_true_eq, Option.all_eq_true] at h
  obtain ⟨⟨⟨⟨⟨⟨⟨⟨⟨⟨⟨⟨⟨⟨⟨h1, h2⟩, h3⟩, h4⟩, h5⟩, h6⟩, h7⟩, h8⟩, h9⟩, h10⟩, h11⟩, h12⟩, h13⟩, h14⟩, h15⟩, h16⟩ := h
  exact {
    routed := ⟨h1, h2⟩, session := h3, cancelMidWord := h4, timesSorted := h5
    firstAtZero := fun r hr => by simpa using h6 r hr
    timesPast := h7, tagMatchesTrace := h8
    budgetAhead := fun hd B hB => h9.elim (fun hn => absurd hd hn) (fun ha => ha B hB)
    valuesMasked := h10, topChannelClear := fun r hr t ht => h11 t ht r hr, withinCapacity := h12
    partialClean := h13, beforeFirst := h14, firstWord := h15, noErrorYet := h16 }

/-! ### WellFormed: one ill-formed term for each check, refused (R79) -/

theorem test_wellFormed_refuses_sampleW1 : ¬ WellFormed (.sampleW1 0x80#32) := by decide
theorem test_wellFormed_refuses_runW1 : ¬ WellFormed (.runW1 0x80#32) := by decide
theorem test_wellFormed_refuses_sampleW2 : ¬ WellFormed (.sampleW2 0x8000#32) := by decide
theorem test_wellFormed_refuses_runW2 : ¬ WellFormed (.runW2 0x8000#32) := by decide
theorem test_wellFormed_refuses_sampleW3 : ¬ WellFormed (.sampleW3 0x800000#32) := by decide
theorem test_wellFormed_refuses_runW3 : ¬ WellFormed (.runW3 0x800000#32) := by decide
theorem test_wellFormed_refuses_sampleW4 : ¬ WellFormed (.sampleW4 0x80000000#32) := by decide
theorem test_wellFormed_refuses_runW4 : ¬ WellFormed (.runW4 0x80000000#32) := by decide

/-! ### Decoding: each row from bits written out from the encoding column of the opcode table (R71 to R73, R78) -/

theorem test_decode_sampleW1 : decode (.word [0b01010101#8]) = .ok (.sampleW1 0x55#32) := by decide
theorem test_decode_runW1 : decode (.word [0b10000010#8]) = .ok (.runW1 2#32) := by decide
theorem test_decode_sampleW2 : decode (.word [0b00110100#8, 0b00010010#8]) = .ok (.sampleW2 0x1234#32) := by decide
theorem test_decode_runW2 : decode (.word [0b11000111#8, 0b10000000#8]) = .ok (.runW2 199#32) := by decide
theorem test_decode_sampleW3 :
    decode (.word [0b11111111#8, 0b11111111#8, 0b01111111#8]) = .ok (.sampleW3 0x7FFFFF#32) := by decide
theorem test_decode_runW3 :
    decode (.word [0b00000001#8, 0b00000010#8, 0b10000011#8]) = .ok (.runW3 0x030201#32) := by decide
theorem test_decode_sampleW4 :
    decode (.word [0b01111000#8, 0b01010110#8, 0b00110100#8, 0b00010010#8]) = .ok (.sampleW4 0x12345678#32) := by decide
theorem test_decode_runW4 :
    decode (.word [0b11101111#8, 0b10111110#8, 0b10101101#8, 0b11011110#8]) = .ok (.runW4 0x5EADBEEF#32) := by decide
theorem test_decode_reset : decode (.event { code := 0b000#3 }) = .ok .reset := by decide
theorem test_decode_start :
    decode (.event { code := 0b001#3, mask := 0xFF#32, budget := some 5#64 }) = .ok (.start 0xFF#32 (some 5#64)) := by decide
theorem test_decode_byte : decode (.event { code := 0b010#3, data := 0x80#8 }) = .ok (.byte 0x80#8) := by decide
theorem test_decode_eos : decode (.event { code := 0b011#3 }) = .ok .eos := by decide
theorem test_decode_cancel : decode (.event { code := 0b100#3 }) = .ok .cancel := by decide
theorem test_decode_refuses :
    decode (.event { code := 0b101#3 }) = .error (.eventCode 5#3) ∧ decode (.word []) = .error (.wordLength 0) ∧
    decode (.word [0#8, 0#8, 0#8, 0#8, 0#8]) = .error (.wordLength 5) := by decide

/-! ### One step of each instruction -/

/-- 95, L2.1: mask 0x0F, byte `3C` is SAMPLE 0x0C. -/
theorem test_sampleW1_masks : (nextOf (exec (.sampleW1 0x3C#32) (session 0x0F#32 none))).map (·.trace) =
    some [⟨0x0C#32, 0#64⟩] := by decide
/-- 95, D-8: capacity 0. -/
theorem test_sampleW1_capacity :
    (nextOf (exec (.sampleW1 1#32) (withCapacity 0 (session 0xFF#32 none)))).map (fun t => (t.status, t.recCount, t.lastValid)) =
    some (.error .capacity, 0, false) := by decide
/-- 95, L2.1: mask 0xFF00FF00, bytes `22 7F`, ROUTED. -/
theorem test_sampleW2_routed : (nextOf (exec (.sampleW2 0x7F22#32) (session 0xFF00FF00#32 none))).map (·.trace) =
    some [⟨0x7F002200#32, 0#64⟩] := by decide
/-- 95, L2.1: the same, COMPACT. -/
theorem test_sampleW2_compact :
    (nextOf (exec (.sampleW2 0x7F22#32) { session 0xFF00FF00#32 none with params := ⟨none, .compact⟩ })).map (·.trace) =
    some [⟨0x00007F00#32, 0#64⟩] := by decide
/-- R104 by hand: groups 0, 1 and 3. -/
theorem test_sampleW3_routed : (nextOf (exec (.sampleW3 0x112233#32) (session 0xFF00FFFF#32 none))).map (·.trace) =
    some [⟨0x11002233#32, 0#64⟩] := by decide
/-- 95, L1-9: `S 0x7FFFFFFF`. -/
theorem test_sampleW4_top : (nextOf (exec (.sampleW4 0x7FFFFFFF#32) (session 0xFFFFFFFF#32 none))).map (·.lastValue) =
    some 0x7FFFFFFF#32 := by decide
/-- 95, P1: `R 2` takes the cursor from 0 to 3. -/
theorem test_runW1_advances : (nextOf (exec (.runW1 2#32) oneSample)).map (fun t => (t.cursor, t.recCount)) =
    some (3#64, 1) := by decide
/-- 95, D-6b: the cursor stays at 2^64 - 128. -/
theorem test_runW1_overflow : (nextOf (exec (.runW1 0x7F#32) (late (2 ^ 64 - 128)))).map (fun t => (t.status, t.cursor, t.errCursor)) =
    some (.error .cursorOverflow, 18446744073709551488#64, 18446744073709551488#64) := by decide
/-- 95, C-8: the error of the word wins over the pending cancel. -/
theorem test_runW2_protocol :
    (nextOf (exec (.runW2 0#32) { session 0xFFFF#32 none with cancelPending := true })).map (fun t => (t.status, t.cancelPending)) =
    some (.error .protocol, false) := by decide
/-- 95, C-9: the cancel is checked before the budget, at the advanced cursor. -/
theorem test_runW2_cancel :
    (nextOf (exec (.runW2 0#32) { midRun (some 1#64) with waCount := 0, cancelPending := true })).map (fun t => (t.status, t.errCursor)) =
    some (.error .cancelled, 1#64) := by decide
/-- 95, D-4c. -/
theorem test_runW3_longest :
    (nextOf (exec (.runW3 0x7FFFFF#32) { session 0xFFFFFF#32 none with lastValid := true })).map (·.cursor) =
    some 8388608#64 := by decide
/-- 95, D-4d. -/
theorem test_runW4_longest :
    (nextOf (exec (.runW4 0x7FFFFFFF#32) { session 0xFFFFFFFF#32 none with lastValid := true })).map (·.cursor) =
    some 2147483648#64 := by decide
/-- 95, C-13. -/
theorem test_reset_clears : nextOf (exec .reset oneSample) = some State.reset := by decide
/-- 95, L1-1: mask 0x01010101. -/
theorem test_start_width : (nextOf (exec (.start 0x01010101#32 none) State.reset)).map (fun t => (t.status, t.cfgGroups, t.cfgWidth.val)) =
    some (.decoding, 0b1111#4, 4) := by decide
/-- 95, C-3 and C-4 (R146): a budget that the cursor reaches exactly. -/
theorem test_byte_budget :
    (nextOf (exec (.byte 0x82#8) { oneSample with cfgBudget := some 3#64 })).map (fun t => (t.status, t.cursor, t.bytesConsumed)) =
    some (.done .budget, 3#64, 2#64) := by decide
/-- 95, C-5: byte `12` completes SAMPLE 0x1234 and the latched cancel follows. -/
theorem test_byte_cancel :
    (nextOf (exec (.byte 0x12#8) { midWord with cancelPending := true })).map (fun t => (t.status, t.trace, t.waCount.val)) =
    some (.error .cancelled, [⟨0x1234#32, 0#64⟩], 0) := by decide
/-- 95, C-6: mid-word, with a cancel pending. -/
theorem test_eos_midWord :
    (nextOf (exec .eos { midWord with cancelPending := true })).map (fun t => (t.status, t.waCount.val, t.cancelPending)) =
    some (.error .corruptStream, 1, false) := by decide
/-- 95, L1-5. -/
theorem test_eos_boundary : (nextOf (exec .eos oneSample)).map (fun t => (t.status, t.trace)) =
    some (.done .eos, [⟨0x2A#32, 0#64⟩]) := by decide
/-- 95, C-5: mid-word, CANCEL latches. -/
theorem test_cancel_latches : (nextOf (exec .cancel midWord)).map (fun t => (t.status, t.cancelPending)) =
    some (.decoding, true) := by decide
/-- 95, C-7. -/
theorem test_cancel_boundary : (nextOf (exec .cancel oneSample)).map (fun t => (t.status, t.errCursor)) =
    some (.error .cancelled, 0#64) := by decide
/-- 95, D-3: `HOLD 300` at W = 1 is `FF FF AB`; P2: `HOLD 40000` at W = 2 is `FF FF 3F 9C`. -/
theorem test_hold_bytes : holdBytes 1 300 = some [0xFF#8, 0xFF#8, 0xAB#8] ∧
    holdBytes 2 40000 = some [0xFF#8, 0xFF#8, 0x3F#8, 0x9C#8] := by decide
/-- 95, C-14: no readout of an unpublished Trace. -/
theorem test_readout_unpublished : readout .recCount oneSample = .error .traceNotPublished := by decide

/-! ### Witnesses: the hypotheses of every statement are met, clause by clause -/

theorem witness_DecodeOfEncodeIsTheInstruction :
    WellFormed (.sampleW1 0x7F#32) ∧ WellFormed (.runW1 0x7F#32) ∧ WellFormed (.sampleW2 0x7FFF#32) ∧
    WellFormed (.runW2 0x7FFF#32) ∧ WellFormed (.sampleW3 0x7FFFFF#32) ∧ WellFormed (.runW3 0x7FFFFF#32) ∧
    WellFormed (.sampleW4 0x7FFFFFFF#32) ∧ WellFormed (.runW4 0x7FFFFFFF#32) ∧ WellFormed .reset ∧
    WellFormed (.start 0#32 none) ∧ WellFormed (.byte 0xFF#8) ∧ WellFormed .eos ∧ WellFormed .cancel := by decide

theorem witness_EveryWordHasOneRow : (1 ≤ [0x80#8].length ∧ [0x80#8].length ≤ 4) ∧
    (1 ≤ [0#8, 0#8, 0#8, 0#8].length ∧ [0#8, 0#8, 0#8, 0#8].length ≤ 4) ∧ ([] : List Byte).length = 0 ∧
    4 < [0#8, 0#8, 0#8, 0#8, 0#8].length := by decide

theorem witness_OpcodeTableRowsByMaskAndMatch :
    (0xFF#32).toNat < 2 ^ (8 * 1) ∧ (0xFFFF#32).toNat < 2 ^ (8 * 2) ∧ (0x7FFFFF#32).toNat < 2 ^ (8 * 3) ∧
    (0xFFFFFFFF#32).toNat < 2 ^ (8 * 4) := by decide

theorem witness_WordsAreLittleEndian : [0x34#8].length ≤ 3 ∧ [0#8, 0#8, 0#8].length ≤ 3 ∧ ([] : List Byte).length ≤ 3 ∧
    ([0x34#8] ++ [0x12#8])[1]? = some 0x12#8 := by decide

theorem witness_HostEventCodes : 5 ≤ ({ code := 5#3 } : HostEvent).code.toNat ∧ 5 ≤ ({ code := 7#3 } : HostEvent).code.toNat ∧
    ({ State.reset with inbox := [{ code := 5#3 }] } : State).inbox = { code := 5#3 } :: [] := by decide

theorem witness_LaneMapIsAscending : lane 0b1010#4 0 = some 1 ∧ lane 0b1010#4 1 = some 3 := by decide

theorem witness_PlacementOfAWord : (0xFFFF#32).toNat < 2 ^ (8 * popcount 0b1010#4) ∧ lane 0b1010#4 1 = some 3 ∧
    (0b1010#4).getLsbD 2 = false ∧ popcount 0b1010#4 ≤ 2 ∧ (0#32).toNat < 2 ^ (8 * popcount 0b0000#4) := by decide

theorem witness_PlacementsAgreeOnLowGroups : 0b0111#4 ∈ [0b0001#4, 0b0011#4, 0b0111#4, 0b1111#4] ∧
    (0xFFFFFF#32).toNat < 2 ^ (8 * popcount 0b0111#4) := by decide

theorem witness_TopChannelReadsZero : (0x7FFF#32).toNat < 2 ^ (8 * (width 0xFF00FF00#32).val) ∧
    runFlag (width 0xFF00FF00#32).val 0x7FFF#32 = false ∧ topBit .routed (groups 0xFF00FF00#32) = some 31 ∧
    topBit .compact (groups 0xFF00FF00#32) = some 15 := by decide

/-- Clause 1 at a capacity of 0 and clause 2 at a budget one above the cursor. -/
theorem witness_SampleWordAppendsARecord :
    (sampleRow 1).isSome ∧ (sampleRow 4).isSome ∧ (session 0xFF#32 none).status = .decoding ∧
    (session 0xFF#32 none).cfgWidth.val = 1 ∧ (session 0xFFFFFFFF#32 none).cfgWidth.val = 4 ∧
    (withCapacity 0 (session 0xFF#32 none)).params.traceCapacity = some (withCapacity 0 (session 0xFF#32 none)).recCount ∧
    (withCapacity 1 (session 0xFF#32 (some 1#64))).params.traceCapacity ≠
      some (withCapacity 1 (session 0xFF#32 (some 1#64))).recCount ∧
    (withCapacity 1 (session 0xFF#32 (some 1#64))).cancelPending = false ∧ (0#64).toNat < (1#64).toNat := by decide

/-- Clause 1; clauses 2 and 3 where they meet (vectors D-6b and D-6c). -/
theorem witness_RunWordAdvancesTheCursor :
    (runRow 1).isSome ∧ (runRow 4).isSome ∧ (session 0xFF#32 none).lastValid = false ∧ (late 0).status = .decoding ∧
    (late 0).cfgWidth.val = 1 ∧ (late 0).lastValid = true ∧ (late 0).cancelPending = false ∧
    2 ^ 64 ≤ (late (2 ^ 64 - 128)).cursor.toNat + (0x7F#32).toNat + 1 ∧
    (late (2 ^ 64 - 129)).cursor.toNat + (0x7F#32).toNat + 1 < 2 ^ 64 ∧ (late 0).cfgBudget = none := by decide

theorem witness_BoundaryCheckAfterAWord :
    (midRun (some 1#64)).status = .decoding ∧ (midRun (some 1#64)).cfgWidth.val = 2 ∧ (sampleRow 2).isSome ∧ (runRow 2).isSome ∧
    (midRun (some 1#64)).params.traceCapacity ≠ some (midRun (some 1#64)).recCount ∧ (midRun (some 1#64)).lastValid = true ∧
    (midRun (some 1#64)).cursor.toNat + (0#32).toNat + 1 < 2 ^ 64 := by decide

theorem witness_WordRowOutsideItsSession : State.reset.status ≠ .decoding ∧ midWord.status = .decoding ∧
    midWord.cfgWidth.val ≠ 1 ∧ faultOf (exec (.sampleW1 0#32) midWord) = some .wordNotOfSessionWidth ∧
    faultOf (exec (.runW3 0#32) midWord) = some .wordNotOfSessionWidth ∧
    nextOf (exec (.runW4 0#32) State.reset) = some State.reset := by decide

/-- Three RUN words that end one below the budget. -/
theorem witness_ConsecutiveRunsSum :
    let s : State := { oneSample with cfgBudget := some 301#64 }
    let cs : List Word := [127#32, 127#32, 43#32]
    s.status = .decoding ∧ s.cfgWidth.val = 1 ∧ s.lastValid = true ∧ s.cancelPending = false ∧
    s.cursor.toNat + (cs.map fun c => c.toNat + 1).sum < 2 ^ 64 ∧
    s.cursor.toNat + (cs.map fun c => c.toNat + 1).sum < (301#64).toNat := by decide

theorem witness_ByteIsKeptOrRunsItsWord : (session 0xFFFF#32 none).status = .decoding ∧
    (session 0xFFFF#32 none).waCount.val + 1 < (session 0xFFFF#32 none).cfgWidth.val ∧
    midWord.status = .decoding ∧ midWord.lastByteNext ∧ midWord.partialWordClean ∧
    oneSample.status = .decoding ∧ oneSample.lastByteNext ∧ oneSample.partialWordClean := by decide

theorem witness_BytesOfAWordRunItsRow : (session 0xFFFF#32 none).status = .decoding ∧ (session 0xFFFF#32 none).waCount.val = 0 ∧
    (session 0xFFFF#32 none).waAcc = 0#32 ∧ [0x34#8, 0x12#8].length = (session 0xFFFF#32 none).cfgWidth.val ∧
    decode (.word [0x34#8, 0x12#8]) = .ok (.sampleW2 0x1234#32) := by decide

/-- 95, C-1 and C-2: the zero mask wins over the budget of 0. -/
theorem witness_StartOpensASession : State.reset.status ≠ .decoding ∧
    (nextOf (exec (.start 0#32 (some 0#64)) State.reset)).map (·.status) = some (.error .configuration) ∧
    (nextOf (exec (.start 1#32 (some 0#64)) State.reset)).map (·.status) = some (.done .budget) ∧
    (nextOf (exec (.start 1#32 (some 1#64)) State.reset)).map (·.status) = some .decoding := by decide

theorem witness_IgnoredEventsChangeNothing : oneSample.status = .decoding ∧ State.reset.status ≠ .decoding := by decide

theorem witness_EosEndsTheSession_CancelIsObservedOrLatched : oneSample.status = .decoding ∧ oneSample.waCount.val = 0 ∧
    midWord.status = .decoding ∧ 0 < midWord.waCount.val := by decide

theorem witness_StepRunsTheOldestEvent : ({ oneSample with inbox := [byteEvent 0x82#8] } : State).inbox = byteEvent 0x82#8 :: [] ∧
    decodeEvent (byteEvent 0x82#8) = .ok (.byte 0x82#8) ∧
    (nextOf (step { oneSample with inbox := [byteEvent 0x82#8] })).map (·.cursor) = some 3#64 := by decide

theorem witness_SilentHostKeepsTheState : oneSample.inbox = [] ∧ nextOf (step oneSample) = some oneSample := by decide

theorem witness_isEvent : isEvent .reset ∧ isEvent (.start 0#32 none) ∧ isEvent (.byte 0#8) ∧ isEvent .eos ∧ isEvent .cancel :=
  ⟨⟨_, rfl⟩, ⟨_, rfl⟩, ⟨_, rfl⟩, ⟨_, rfl⟩, ⟨_, rfl⟩⟩

theorem witness_EveryEventStepCompletes : ∀ e ∈ ({ oneSample with inbox := [{ code := 4#3 }, byteEvent 0#8] } : State).inbox,
    e.code.toNat < 5 := by decide

/-- Event rows and word rows of the table, and the session that a word row is placed in. -/
theorem witness_PlacedRowIsRunByTheNextStep :
    decodeTableWord 8 3 = some .eos ∧ decodeTableWord 8 0x82 = some (.runW1 2#32) ∧ decodeTableWord 8 0x05 = some (.sampleW1 5#32) ∧
    decodeTableWord 16 0 = some (.sampleW2 0#32) ∧ decodeTableWord 32 0x80000000 = some (.runW4 0#32) ∧
    encode (.runW4 0#32) = .word [0#8, 0#8, 0#8, 0x80#8] ∧ oneSample.cfgWidth.val = [0x82#8].length ∧
    (nextOf (step (oneSample.withFetchWord 8 0x82))).map (·.cursor) = some 3#64 ∧
    oneSample.status = .decoding ∧ State.reset.status ≠ .decoding ∧ oneSample.cfgWidth.val ≠ [0#8, 0#8].length ∧
    (nextOf (step (State.reset.withFetchWord 16 0))).map (fun t => (t.cfgMask, t.bytesConsumed, t.recCount)) =
      some (0xFFFF#32, 2#64, 1) := by decide

/-! The phase graph: a state that meets the invariant for every row of the table of R201. -/

theorem witness_inv_reset : BlockInv State.reset := inv_of_check (by decide)
theorem witness_inv_session : BlockInv (session 0xFF#32 none) := inv_of_check (by decide)
theorem witness_inv_oneSample : BlockInv oneSample := inv_of_check (by decide)
theorem witness_inv_midWord : BlockInv midWord ∧ BlockInv { midWord with cancelPending := true } :=
  ⟨inv_of_check (by decide), inv_of_check (by decide)⟩
theorem witness_inv_midRun : BlockInv (midRun (some 1#64)) ∧ BlockInv { midRun (some 1#64) with cancelPending := true } :=
  ⟨inv_of_check (by decide), inv_of_check (by decide)⟩
theorem witness_inv_late : BlockInv (late (2 ^ 64 - 1)) := inv_of_check (by decide)
theorem witness_inv_full : BlockInv (withCapacity 1 oneSample) := inv_of_check (by decide)

theorem witness_StatusFollowsThePhaseGraph_start : PhaseChange State.reset .reset .idle ∧
    PhaseChange State.reset (.start 0#32 none) (.error .configuration) ∧
    PhaseChange State.reset (.start 1#32 (some 0#64)) (.done .budget) ∧ PhaseChange State.reset (.start 1#32 (some 1#64)) .decoding :=
  ⟨.reset, .startZeroMask none (by decide), .startZeroBudget 1#32 (by decide) (by decide),
    .startSession 1#32 (some 1#64) (by decide) (by decide) (by decide)⟩

theorem witness_StatusFollowsThePhaseGraph_word : PhaseChange (withCapacity 1 oneSample) (.byte 2#8) (.error .capacity) ∧
    PhaseChange (session 0xFF#32 none) (.byte 0x81#8) (.error .protocol) ∧
    PhaseChange (late (2 ^ 64 - 1)) (.byte 0x80#8) (.error .cursorOverflow) :=
  ⟨.traceFull _ (by decide) (by decide) (by decide) (by decide), .runFirst _ (by decide) (by decide) (by decide) (by decide),
    .runOverflows _ (by decide) (by decide) (by decide) (by decide) (by decide)⟩

theorem witness_StatusFollowsThePhaseGraph_boundary :
    PhaseChange { midWord with cancelPending := true } (.byte 0x12#8) (.error .cancelled) ∧
    PhaseChange { midRun (some 1#64) with cancelPending := true } (.byte 0x80#8) (.error .cancelled) ∧
    PhaseChange (midRun (some 1#64)) (.byte 0x80#8) (.done .budget) :=
  ⟨.cancelAfterSample _ (by decide) (by decide) (by decide) (by decide) (by decide),
    .cancelAfterRun _ (by decide) (by decide) (by decide) (by decide) (by decide),
    .budgetReached _ 1#64 (by decide) (by decide) (by decide) (by decide) (by decide) (by decide) (by decide)⟩

theorem witness_StatusFollowsThePhaseGraph_end : PhaseChange oneSample .eos (.done .eos) ∧
    PhaseChange midWord .eos (.error .corruptStream) ∧ PhaseChange oneSample .cancel (.error .cancelled) :=
  ⟨.eosAtBoundary (by decide) (by decide), .eosMidWord (by decide) (by decide), .cancelAtBoundary (by decide) (by decide)⟩

theorem witness_ConfigurationFixedWhileDecoding : oneSample.status = .decoding ∧
    (nextOf (exec (.byte 0x82#8) oneSample)).isSome ∧ (nextOf (exec .reset oneSample)).map (·.status) = some .idle := by decide

theorem witness_TraceIsAppendOnly : (nextOf (exec (.byte 0x55#8) oneSample)).map (·.trace) =
    some [⟨0x2A#32, 0#64⟩, ⟨0x55#32, 0#64⟩] := by decide

theorem witness_TerminalStatusIsKept :
    (nextOf (exec (.byte 0x55#8) { oneSample with status := .done .eos })).map (·.status) = some (.done .eos) ∧
    (nextOf (exec (.start 1#32 none) { oneSample with status := .error .cancelled })).map (·.trace) = some [] := by decide

theorem witness_ErrorEntryRecordsTheCursor : (nextOf (exec (.byte 0x80#8) (late (2 ^ 64 - 1)))).map (·.status) =
    some (.error .cursorOverflow) ∧ (late (2 ^ 64 - 1)).status ≠ .error .cursorOverflow := by decide

/-- 95, D-5 at W = 2 and L1-7 at W = 1. -/
theorem witness_ProtocolErrorIsTheFirstWord :
    BlockInv { session 0xFFFF#32 none with waCount := 1, bytesConsumed := 1#64 } ∧
    (nextOf (exec (.byte 0x80#8) { session 0xFFFF#32 none with waCount := 1, bytesConsumed := 1#64 })).map
      (fun t => (t.status, t.bytesConsumed, t.errCursor)) = some (.error .protocol, 2#64, 0#64) :=
  ⟨inv_of_check (by decide), by decide⟩

/-- The largest overshoot at W = 2: a budget of 1 and the longest RUN word. -/
theorem witness_BudgetOvershootIsBounded :
    BlockInv { midRun (some 1#64) with waAcc := 0xFF#32 } ∧
    (nextOf (exec (.byte 0xFF#8) { midRun (some 1#64) with waAcc := 0xFF#32 })).map (fun t => (t.status, t.cursor)) =
      some (.done .budget, 32768#64) := ⟨inv_of_check (by decide), by decide⟩

theorem witness_EveryStepKeepsTheInvariant : BlockInv { midWord with inbox := [byteEvent 0x12#8] } ∧
    (nextOf (step { midWord with inbox := [byteEvent 0x12#8] })).isSome = true := ⟨inv_of_check (by decide), by decide⟩

theorem witness_BytesConsumedStayAligned : midWord.byteAligned ∧ midWord.bytesConsumed ≠ BitVec.allOnes 64 ∧
    (nextOf (step { midWord with inbox := [byteEvent 0x12#8] })).isSome = true := by decide

theorem witness_SessionsDoNotDependOnThePast : State.reset.status ≠ .decoding ∧
    ({ oneSample with status := .done .eos } : State).status ≠ .decoding ∧ State.reset.params = oneSample.params := by decide

theorem witness_HoldDurationsAddUp : holdCounts 1 128 = [127] ++ [] ∧ holdCounts 1 129 = [127, 0] ∧ holdCounts 1 1 = [0] := by decide

/-- Two levels at W = 1, the second longer than one RUN word, at a capacity of exactly two. -/
theorem witness_LevelsRoundTrip :
    (withCapacity 2 State.reset).status ≠ .decoding ∧ (0xFF#32 : Word) ≠ 0#32 ∧
    (withCapacity 2 State.reset).params.traceCapacity = some [(0x2A, 3), (0x55, 200)].length ∧
    totalDuration [(0x2A, 3), (0x55, 200)] < 2 ^ 64 ∧
    [(0x2A, 3), (0x55, 200)].mapM (fun (v, d) => levelBytes (width 0xFF#32).val v d) =
      some [[0x2A#8, 0x82#8], [0x55#8, 0xFF#8, 0xC7#8]] := by decide

theorem witness_StatusCodesAreTheTable : 4 ≤ (4#4).toNat ∧ (7#4).toNat ≤ 7 ∧ 14 ≤ (14#4).toNat := by decide

/-- 95, C-15: after D-1, REC(1) is a record and REC(2) is refused. -/
theorem witness_TraceReadOnlyWhenPublished_ReadoutsAreTheTable :
    let s : State := { session 0xFF#32 none with status := .done .eos, trace := [⟨1#32, 0#64⟩, ⟨2#32, 0#64⟩] }
    s.traceValid = true ∧ s.trace[1]? = some ⟨2#32, 0#64⟩ ∧ s.recCount ≤ 2 ∧ readout (.record 1) s = .ok (.record ⟨2#32, 0#64⟩) ∧
    readout (.record 2) s = .error (.noSuchRecord 2) ∧ oneSample.traceValid = false ∧ (∀ d, oneSample.status ≠ .done d) := by
  refine ⟨rfl, rfl, by decide, by decide, by decide, rfl, fun d => ?_⟩
  cases d <;> decide

end Sys2Proof.Machine.Tests
end

/-! PROOFS. The family 00_scope.md: what a step runs (R3, R190), and the model's two carriers, which no
instruction writes (R7, R192). -/

namespace Sys2Proof.Machine

/-! ### Taking the oldest event -/

/-- The oldest event is the head of the queue, and taking it leaves the rest (R60). -/
theorem nextEvent_of_inbox_cons {s : State} {e : HostEvent} {es : List HostEvent} (h : s.inbox = e :: es) :
    nextEvent s = some (e, { s with inbox := es }) := by
  simp only [nextEvent, h]

/-- A step with an event to take whose code exists is that event's instruction on the state left (R190). -/
theorem step_of_nextEvent {s s' : State} {e : HostEvent} {i : Instr} (hn : nextEvent s = some (e, s'))
    (hd : decodeEvent e = .ok i) : step s = exec i s' := by
  simp only [step, hn, hd]

/-! ### The carriers -/

/-- A word keeps the two carriers (R151). -/
theorem WordEffect.carriers {s t : State} (h : WordEffect s t) : t.params = s.params ∧ t.inbox = s.inbox := by
  obtain ⟨-, -, -, -, hparams, hinbox, -⟩ := h.frame
  exact ⟨hparams, hinbox⟩

/-- Every effect an instruction can have keeps the two carriers: those of a word by its frame, RESET's because it
restores only the state elements (R191), START's because opening the session writes its outcome alone (R192). -/
theorem InstrEffect.carriers {s t : State} {i : Instr} (h : InstrEffect s i t) :
    t.params = s.params ∧ t.inbox = s.inbox := by
  cases h with
  | ignored i _ => exact ⟨rfl, rfl⟩
  | word n row w t _ _ _ effect => exact effect.carriers
  | reset => exact ⟨rfl, rfl⟩
  | started m B _ =>
    obtain ⟨_, _, _, e⟩ := openSession_frame (loadSession m B s)
    simp [e]
  | kept b _ _ => simp
  | completed b t _ _ _ effect => exact effect.carriers
  | ended _ _ => simp
  | truncated _ _ => simp
  | cancelled _ _ => simp
  | latched _ _ => exact ⟨rfl, rfl⟩

/-- Settles O37: what an instruction that answers a next state did is one of the listed effects, and each of them
keeps the carriers. -/
theorem parametersAndQueueAreNeverWritten : Obligations.ParametersAndQueueAreNeverWritten :=
  fun _ _ _ h => (exec_next_effect h).carriers

/-- Settles O26: the head of the queue is the event taken, and the step runs what it decodes to. -/
theorem stepRunsTheOldestEvent : Obligations.StepRunsTheOldestEvent :=
  fun _ _ _ _ hq hd => step_of_nextEvent (nextEvent_of_inbox_cons hq) hd

/-- START, which writes most of the state, meets the hypothesis of O37 with a finite capacity and an event still
waiting: both are as before. -/
theorem witness_ParametersAndQueueAreNeverWritten :
    let s : State := { State.reset with params := ⟨some 1, .routed⟩, inbox := [byteEvent 0x12#8] }
    ∃ t, exec (.start 0xFFFF#32 none) s = .next t ∧ t.params = s.params ∧ t.inbox = s.inbox :=
  ⟨_, rfl, parametersAndQueueAreNeverWritten (.start 0xFFFF#32 none) _ _ rfl⟩

end Sys2Proof.Machine

/-! PROOFS. The family 10_state.md: the reset state (R36), the outputs that are functions of `status` (R33), the
invariants of R37 from reset on, and the configuration that no event but RESET changes mid-session (R38). -/

namespace Sys2Proof.Machine

/-! ### The outputs that are functions of `status` -/

theorem State.busy_iff (s : State) : s.busy = true ↔ s.status = .decoding := by
  rw [State.busy, beq_iff_eq]

theorem State.traceValid_iff (s : State) :
    s.traceValid = true ↔ s.status = .done .eos ∨ s.status = .done .budget := by
  unfold State.traceValid
  rcases s.status with _ | _ | d | e
  case done => cases d <;> simp
  all_goals simp

theorem State.error_iff (s : State) : s.error = true ↔ ∃ e, s.status = .error e := by
  unfold State.error
  rcases s.status with _ | _ | d | e <;> simp

/-- Bit 3 of a status code is set for the error statuses alone (R239). -/
theorem Status.code_bit3_iff (st : Status) : st.code.getLsbD 3 = true ↔ ∃ e, st = .error e := by
  rcases st with _ | _ | d | e
  case done => cases d <;> simp [Status.code]
  case error => cases e <;> simp [Status.code]
  all_goals simp [Status.code]

/-- Settles O45: each output is read off the status, and `error` and bit 3 of the code hold of the same statuses. -/
theorem statusOutputs : Obligations.StatusOutputs :=
  fun s => ⟨s.busy_iff, s.traceValid_iff, s.error_iff,
    Bool.eq_iff_iff.mpr (s.error_iff.trans s.status.code_bit3_iff.symm)⟩

/-! ### The reset state -/

/-- Settles O1: the table of R36, element by element. -/
theorem resetStateIsTheTable : Obligations.ResetStateIsTheTable := by
  unfold Obligations.ResetStateIsTheTable
  decide

/-- What RESET leaves meets the invariant, whatever the parameters and the queue it keeps (R191): no session runs, and
the buffer is empty. -/
theorem reset_inv (p : Params) (q : List HostEvent) : BlockInv { State.reset with params := p, inbox := q } where
  routed := by show 0#4 = groups 0#32 ∧ 0 = width 0#32; decide
  session := by intro hd; cases hd
  cancelMidWord := by intro hc; cases hc
  timesSorted := .nil
  firstAtZero := by intro r hr; cases hr
  timesPast := by intro r hr; cases hr
  tagMatchesTrace := by show false = true ↔ 0 < 0; decide
  budgetAhead := by intro hd; cases hd
  valuesMasked := by intro r hr; cases hr
  topChannelClear := by intro r hr; cases hr
  withinCapacity := fun n _ => Nat.zero_le n
  partialClean := by show (0#32).toNat < 2 ^ (8 * 0); decide
  beforeFirst := fun _ => ⟨rfl, rfl⟩
  firstWord := by intro hd; cases hd
  noErrorYet := fun _ => rfl

/-- Settles O38: power-on is RESET with the default parameters and nothing offered, and alignment speaks of DECODING
only. -/
theorem invariantHoldsAtReset : Obligations.InvariantHoldsAtReset :=
  ⟨reset_inv Params.default [], by intro hd; cases hd⟩

/-! ### The invariant through a step -/

/-- The invariant does not look at the host's queue. -/
theorem BlockInv.with_inbox {s : State} (h : BlockInv s) (q : List HostEvent) : BlockInv { s with inbox := q } :=
  ⟨h.routed, h.session, h.cancelMidWord, h.timesSorted, h.firstAtZero, h.timesPast, h.tagMatchesTrace, h.budgetAhead,
    h.valuesMasked, h.topChannelClear, h.withinCapacity, h.partialClean, h.beforeFirst, h.firstWord, h.noErrorYet⟩

/-- While DECODING no error has been entered (R35). -/
theorem BlockInv.errCursor_of_decoding {s : State} (h : BlockInv s) (hd : s.status = .decoding) :
    s.errCursor = 0#64 := by
  apply h.noErrorYet
  rw [← Bool.not_eq_true, s.error_iff, hd]
  simp

/-- At a word boundary no cancel is pending (R37 item 2). -/
theorem BlockInv.cancelPending_of_boundary {s : State} (h : BlockInv s) (h0 : s.waCount.val = 0) :
    s.cancelPending = false := by
  rw [← Bool.not_eq_true]
  intro hc
  obtain ⟨-, hpos⟩ := h.cancelMidWord hc
  omega

/-- Latching a cancel inside a word keeps the invariant (R198). -/
theorem latchCancel_inv {s : State} (h : BlockInv s) (hd : s.status = .decoding) (hpos : 0 < s.waCount.val) :
    BlockInv { s with cancelPending := true } :=
  ⟨h.routed, h.session, fun _ => ⟨hd, hpos⟩, h.timesSorted, h.firstAtZero, h.timesPast, h.tagMatchesTrace,
    h.budgetAhead, h.valuesMasked, h.topChannelClear, h.withinCapacity, h.partialClean, h.beforeFirst, h.firstWord,
    h.noErrorYet⟩

/-- A byte that completes a word keeps the invariant: the word is processed with the unpacker cleared (R121, R151). -/
theorem completedWord_inv {s : State} (h : BlockInv s) (hd : s.status = .decoding) (b : Byte) :
    BlockInv (processWord s.cfgWidth.val (completedWord b s) (closeWord s)) :=
  processWord_inv (closeWord_facts h.sessionFacts) (h.session hd).1 rfl (h.errCursor_of_decoding hd) _

/-- Every effect an event can have keeps the invariant. A word row is no event, so a word is met only at the byte that
completes it, where its flag is known. -/
theorem InstrEffect.inv {s t : State} {i : Instr} (he : InstrEffect s i t) (hi : isEvent i) (h : BlockInv s) :
    BlockInv t := by
  cases he with
  | ignored i _ => exact h
  | word n row w t isRow _ _ _ => exact absurd hi (not_isEvent_of_row isRow w)
  | reset => exact reset_inv _ _
  | started m B _ => exact openSession_inv m B s
  | kept b run more => exact keepByte_inv h run b more
  | completed b t run _ result _ => exact result ▸ completedWord_inv h run b
  | ended run boundary =>
    exact finish_inv h.sessionFacts _ (h.cancelPending_of_boundary boundary) (h.errCursor_of_decoding run)
  | truncated _ _ => exact raise_inv h.sessionFacts _
  | cancelled _ _ => exact raise_inv h.sessionFacts _
  | latched run inside => exact latchCancel_inv h run inside

/-- A step waits, or has the effect of an event on the state with that event taken. -/
theorem step_next_effect {s t : State} (h : step s = .next t) :
    t = s ∨ ∃ es i, isEvent i ∧ InstrEffect { s with inbox := es } i t := by
  rcases step_next h with ⟨_, rfl⟩ | ⟨e, es, i, _, hdec, hex⟩
  · exact .inl rfl
  · exact .inr ⟨es, i, isEvent_of_decodeEvent hdec, exec_next_effect hex⟩

/-- Settles O39: a step that waits changes nothing, and every effect of an event keeps the invariant. -/
theorem everyStepKeepsTheInvariant : Obligations.EveryStepKeepsTheInvariant := by
  intro s t h hstep
  rcases step_next_effect hstep with rfl | ⟨es, i, hi, he⟩
  · exact h
  · exact he.inv hi (h.with_inbox es)

/-! ### Byte alignment through a step -/

/-- One more byte, short of wrapping, moves the count of bytes on by one (R34). -/
theorem bytesConsumed_succ_mod {s : State} (ha : s.bytesConsumed.toNat % s.cfgWidth.val = s.waCount.val)
    (hb : s.bytesConsumed ≠ BitVec.allOnes 64) :
    (s.bytesConsumed + 1#64).toNat % s.cfgWidth.val = (s.waCount.val + 1) % s.cfgWidth.val := by
  have hlt : s.bytesConsumed < BitVec.allOnes 64 := BitVec.lt_allOnes_iff.mpr hb
  have hsucc : (s.bytesConsumed + 1#64).toNat = s.bytesConsumed.toNat + 1 := BitVec.toNat_add_of_lt (by bv_omega)
  rw [hsucc, ← Nat.mod_add_mod, ha]

/-- A kept byte moves `wa_count` with the bytes consumed (R121). -/
theorem keepByte_byteAligned {s : State} (ha : s.byteAligned) (hd : s.status = .decoding)
    (hb : s.bytesConsumed ≠ BitVec.allOnes 64) (b : Byte) (hm : s.waCount.val + 1 < s.cfgWidth.val) :
    (keepByte b s).byteAligned := by
  intro _
  rw [keepByte_bytesConsumed, keepByte_cfgWidth, keepByte_waCount_val hm, bytesConsumed_succ_mod (ha hd) hb,
    Nat.mod_eq_of_lt hm]

/-- The byte that completes a word brings the bytes consumed to a multiple of the width (R121). -/
theorem closeWord_byteAligned {s : State} (h : BlockInv s) (ha : s.byteAligned)
    (hb : s.bytesConsumed ≠ BitVec.allOnes 64) (hf : s.cfgWidth.val ≤ s.waCount.val + 1) :
    (closeWord s).byteAligned := by
  intro hd
  obtain ⟨_, hlt⟩ := h.session hd
  have hlast : s.waCount.val + 1 = s.cfgWidth.val := by omega
  rw [closeWord_bytesConsumed, closeWord_cfgWidth, closeWord_waCount, bytesConsumed_succ_mod (ha hd) hb, hlast,
    Nat.mod_self]
  rfl

/-- A word leaves the counts of bytes as they are (R151). -/
theorem WordEffect.byteAligned {s t : State} (he : WordEffect s t) (hd : s.status = .decoding) (ha : s.byteAligned) :
    t.byteAligned := by
  obtain ⟨-, -, hwidth, -, -, -, -, hcount, hbytes⟩ := he.frame
  intro _
  rw [hwidth, hcount, hbytes]
  exact ha hd

/-- START begins with no bytes consumed and none in the unpacker (R192). -/
theorem openSession_byteAligned (m : Word) (B : Option Time) (s : State) :
    (openSession (loadSession m B s)).byteAligned := by
  intro _
  obtain ⟨_, _, _, e⟩ := openSession_frame (loadSession m B s)
  simp [e]

/-- Every effect of an event keeps byte alignment while the counter does not wrap; one that leaves DECODING has nothing
to keep. -/
theorem InstrEffect.byteAligned {s t : State} {i : Instr} (he : InstrEffect s i t) (hi : isEvent i) (h : BlockInv s)
    (ha : s.byteAligned) (hb : s.bytesConsumed ≠ BitVec.allOnes 64) : t.byteAligned := by
  cases he with
  | ignored i _ => exact ha
  | word n row w t isRow _ _ _ => exact absurd hi (not_isEvent_of_row isRow w)
  | reset => intro hd; cases hd
  | started m B _ => exact openSession_byteAligned m B s
  | kept b run more => exact keepByte_byteAligned ha run hb b more
  | completed b t run final _ effect => exact effect.byteAligned run (closeWord_byteAligned h ha hb final)
  | ended _ _ => intro hd; cases hd
  | truncated _ _ => intro hd; cases hd
  | cancelled _ _ => intro hd; cases hd
  | latched _ _ => exact ha

/-- Settles O40: a step that waits changes nothing, and every effect of an event keeps the alignment. -/
theorem bytesConsumedStayAligned : Obligations.BytesConsumedStayAligned := by
  intro s t h ha hb hstep
  rcases step_next_effect hstep with rfl | ⟨es, i, hi, he⟩
  · exact ha
  · exact he.byteAligned hi (h.with_inbox es) ha hb

/-! ### The configuration -/

/-- While DECODING every effect but RESET's leaves the configuration as it is: START is ignored (R193), and no other
instruction names it (R38). -/
theorem InstrEffect.config {s t : State} {i : Instr} (he : InstrEffect s i t) (hd : s.status = .decoding)
    (hi : i ≠ .reset) :
    t.cfgMask = s.cfgMask ∧ t.cfgGroups = s.cfgGroups ∧ t.cfgWidth = s.cfgWidth ∧ t.cfgBudget = s.cfgBudget := by
  cases he with
  | word n row w t _ _ _ effect =>
    obtain ⟨hmask, hgroups, hwidth, hbudget, -⟩ := effect.frame
    exact ⟨hmask, hgroups, hwidth, hbudget⟩
  | completed b t _ _ _ effect =>
    obtain ⟨hmask, hgroups, hwidth, hbudget, -⟩ := effect.frame
    exact ⟨hmask, hgroups, hwidth, hbudget⟩
  | reset => exact absurd rfl hi
  | started m B out => exact absurd hd out
  | ignored i _ => exact ⟨rfl, rfl, rfl, rfl⟩
  | kept b _ _ => exact ⟨rfl, rfl, rfl, rfl⟩
  | ended _ _ => exact ⟨rfl, rfl, rfl, rfl⟩
  | truncated _ _ => exact ⟨rfl, rfl, rfl, rfl⟩
  | cancelled _ _ => exact ⟨rfl, rfl, rfl, rfl⟩
  | latched _ _ => exact ⟨rfl, rfl, rfl, rfl⟩

/-- RESET answers the reset state, which is IDLE (R191). -/
theorem status_of_exec_reset {s t : State} (h : exec .reset s = .next t) : t.status = .idle := by
  cases h
  rfl

/-- Settles O31: the first clause by what an instruction can have done, the second because RESET ends in IDLE. -/
theorem configurationFixedWhileDecoding : Obligations.ConfigurationFixedWhileDecoding := by
  intro i s t hd h
  refine ⟨fun hi => (exec_next_effect h).config hd hi, ?_⟩
  rintro rfl
  exact status_of_exec_reset h

end Sys2Proof.Machine

/-! PROOFS. The family 20_memory.md: the bytes of a word and their order (R55, R122), a word from its bytes to its row
(R52, R58, R121), the table row that the probe places (log 2, log 9, log 10), and reading the Trace (R54). -/

namespace Sys2Proof.Machine

/-! ### The byte order -/

/-- Byte `i` received is lane `i` of the word (R55). -/
theorem byteAt_wireWord {bs : List Byte} (h : bs.length ≤ 4) {i : Nat} {b : Byte} (hb : bs[i]? = some b) :
    byteAt i (wireWord bs) = b := by
  obtain ⟨hi, rfl⟩ := List.getElem?_eq_some_iff.mp hb
  have hbytes : (wordBytes bs.length (wireWord bs))[i]? = bs[i]? := by rw [wordBytes_wireWord h]
  simpa [wordBytes, hi] using hbytes

/-- The RUN flag of a word is bit 7 of the byte received last (R122). -/
theorem runFlag_wireWord_append {bs : List Byte} (h : bs.length ≤ 3) (last : Byte) :
    runFlag (bs.length + 1) (wireWord (bs ++ [last])) = last.getLsbD 7 := by
  have hlt : 8 * (bs.length + 1) - 1 < 32 := by omega
  have hdiv : (8 * (bs.length + 1) - 1) / 8 = bs.length := by omega
  have hmod : (8 * (bs.length + 1) - 1) % 8 = 7 := by omega
  rw [runFlag, getLsbD_wireWord, hdiv, hmod]
  simp [hlt, -BitVec.getLsbD_eq_getElem]

/-- Bit 7 of a byte, picked out by the mask 0x80. -/
theorem and_0x80_bne_zero (b : Byte) : (b &&& 0x80#8 != 0#8) = b.getLsbD 7 := by
  have hmask : 0x80#8 = BitVec.twoPow 8 7 := rfl
  rw [hmask, BitVec.and_twoPow]
  cases b.getLsbD 7 <;> rfl

/-- Settles O6: the lanes are the bytes in the order received, and the flag is the top bit of the last lane. -/
theorem wordsAreLittleEndian : Obligations.WordsAreLittleEndian := by
  intro bs last hlen
  have hlength : (bs ++ [last]).length = bs.length + 1 := by simp
  refine ⟨fun i b hb => byteAt_wireWord (by omega) hb, ?_, ?_⟩
  · rw [← hlength]
    exact wireWord_lt _
  · rw [runFlag_wireWord_append hlen, and_0x80_bne_zero]

/-! ### A word from its bytes -/

/-- The session at the boundary after a word of `n` bytes, all of them counted (R121, R194). -/
def wordReceived (n : Nat) (s : State) : State :=
  { s with bytesConsumed := s.bytesConsumed + BitVec.ofNat 64 n, waAcc := 0#32, waCount := 0 }

/-- Fewer than four bytes are kept, so their count does not wrap (R26). -/
theorem receive_waCount_val {init : List Byte} (h : init.length < 4) (s : State) :
    (receive init s).waCount.val = init.length := Nat.mod_eq_of_lt h

/-- A word boundary with an empty accumulator is the session with no byte of a word received. -/
theorem receive_nil {s : State} (hc : s.waCount.val = 0) (ha : s.waAcc = 0#32) : receive [] s = s := by
  have hcount : (0 : Fin 4) = s.waCount := Fin.ext hc.symm
  have hbytes : s.bytesConsumed + BitVec.ofNat 64 0 = s.bytesConsumed := BitVec.add_zero _
  simp [receive, wireWord, hcount, hbytes, ← ha]

/-- One byte more counts one more (R194). -/
theorem add_ofNat_add_one (x : Time) (n : Nat) : x + BitVec.ofNat 64 n + 1#64 = x + BitVec.ofNat 64 (n + 1) := by
  rw [BitVec.add_assoc, ← BitVec.ofNat_add]

/-- Keeping a byte is receiving it after those received before (R120, R121). -/
theorem keepByte_receive {init : List Byte} (h : init.length < 4) (b : Byte) (s : State) :
    keepByte b (receive init s) = receive (init ++ [b]) s := by
  have hcount := receive_waCount_val h s
  have hacc : accumulate (receive init s) b = wireWord (init ++ [b]) := by
    rw [wireWord_append, accumulate, hcount]
    rfl
  rw [keepByte, hacc, hcount]
  simp [receive, add_ofNat_add_one]

/-- The byte that completes a word brings the session to the boundary after it (R121). -/
theorem closeWord_receive (init : List Byte) (s : State) :
    closeWord (receive init s) = wordReceived (init.length + 1) s := by
  simp [closeWord, receive, wordReceived, add_ofNat_add_one]

/-- In DECODING a byte goes to the unpacker (R194). -/
theorem exec_byte_decoding {s : State} (hd : s.status = .decoding) (b : Byte) :
    exec (.byte b) s = .next (takeByte b s) := if_pos hd

/-- A byte that does not complete a word is kept (R121). -/
theorem exec_byte_kept {b : Byte} {s : State} (hd : s.status = .decoding) (hm : s.waCount.val + 1 < s.cfgWidth.val) :
    exec (.byte b) s = .next (keepByte b s) := by
  rw [exec_byte_decoding hd, takeByte, if_pos hm]

/-- The byte that completes a word runs the row its bytes decode to, in the same step (R58, R121, R151). -/
theorem exec_byte_completes {b : Byte} {i : Instr} {s : State} (hd : s.status = .decoding) (hc : s.partialWordClean)
    (hf : s.lastByteNext) (hi : decode (.word (wordBytes s.waCount.val s.waAcc ++ [b])) = .ok i) :
    exec (.byte b) s = exec i (closeWord s) := by
  have hlen : (wordBytes s.waCount.val s.waAcc ++ [b]).length = s.cfgWidth.val := by simpa using hf
  have hrow : exec i (closeWord s) = .next (processWord s.cfgWidth.val (completedWord b s) (closeWord s)) := by
    rw [decode, decodeWord, hlen, ← completedWord_eq hc hf] at hi
    exact exec_decodeWordValue hi hd rfl
  have hlast : ¬ s.waCount.val + 1 < s.cfgWidth.val := by
    have : s.waCount.val + 1 = s.cfgWidth.val := hf
    omega
  rw [hrow, exec_byte_decoding hd, takeByte, if_neg hlast]

/-- With all bytes of a word but the last received, the last one runs the word's row at the boundary (R58, R121). -/
theorem exec_byte_receive {init : List Byte} {last : Byte} {i : Instr} {s : State} (hd : s.status = .decoding)
    (hw : s.cfgWidth.val = init.length + 1) (hi : decode (.word (init ++ [last])) = .ok i) :
    exec (.byte last) (receive init s) = exec i (wordReceived (init.length + 1) s) := by
  have hlt : init.length < 4 := by
    have := s.cfgWidth.isLt
    omega
  have hcount := receive_waCount_val hlt s
  have hacc : (receive init s).waAcc = wireWord init := rfl
  rw [← closeWord_receive]
  refine exec_byte_completes (s := receive init s) hd ?_ ?_ ?_
  · rw [State.partialWordClean, hcount, hacc]
    exact wireWord_lt init
  · rw [State.lastByteNext, hcount]
    exact hw.symm
  · rw [hcount, hacc, wordBytes_wireWord (by omega)]
    exact hi

theorem execAll_singleton (i : Instr) (s : State) : execAll [i] s = exec i s := by
  rw [execAll]
  cases exec i s <;> rfl

theorem execAll_cons {i : Instr} {s t : State} (h : exec i s = .next t) (is : List Instr) :
    execAll (i :: is) s = execAll is t := by
  rw [execAll, h]

/-- The bytes that a word still lacks, at least one, are kept one by one, and the last runs the word's row. -/
theorem execAll_bytes_receive {init bs : List Byte} {i : Instr} {s : State} (hd : s.status = .decoding) (hne : bs ≠ [])
    (hw : s.cfgWidth.val = (init ++ bs).length) (hi : decode (.word (init ++ bs)) = .ok i) :
    execAll (bs.map .byte) (receive init s) = exec i (wordReceived (init ++ bs).length s) := by
  induction bs generalizing init with
  | nil => exact absurd rfl hne
  | cons b bs ih =>
    cases bs with
    | nil =>
      rw [List.length_append, List.length_singleton] at hw ⊢
      rw [List.map_singleton, execAll_singleton, exec_byte_receive hd hw hi]
    | cons c cs =>
      have hlt : init.length + 1 < s.cfgWidth.val := by simp [hw]
      have h4 : init.length < 4 := by
        have := s.cfgWidth.isLt
        omega
      have hkept : exec (.byte b) (receive init s) = .next (receive (init ++ [b]) s) := by
        rw [← keepByte_receive h4]
        exact exec_byte_kept hd (by rwa [receive_waCount_val h4])
      have hsplit : init ++ b :: c :: cs = init ++ [b] ++ c :: cs := by simp
      rw [hsplit] at hw hi ⊢
      rw [List.map_cons, execAll_cons hkept, ih (by simp) hw hi]

/-- At a word boundary with an empty accumulator, only the count of bytes is left to change. -/
theorem wordReceived_of_boundary {s : State} (hc : s.waCount.val = 0) (ha : s.waAcc = 0#32) (n : Nat) :
    wordReceived n s = { s with bytesConsumed := s.bytesConsumed + BitVec.ofNat 64 n } := by
  have hcount : (0 : Fin 4) = s.waCount := Fin.ext hc.symm
  rw [wordReceived, hcount, ← ha]

/-- Settles O21: the bytes are kept one by one until the last, which runs the row; the empty word decodes to none. -/
theorem bytesOfAWordRunItsRow : Obligations.BytesOfAWordRunItsRow := by
  intro bs i s hd hc ha hlen hi
  have hne : bs ≠ [] := by
    rintro rfl
    cases hi
  have hrun := execAll_bytes_receive (init := []) hd hne hlen.symm hi
  rwa [receive_nil hc ha, List.nil_append, wordReceived_of_boundary hc ha] at hrun

/-! ### A placed table row -/

/-- The row a word decodes to has the width of the word (R70, R81). -/
theorem rowBytes_of_decodeWordValue {n : Nat} {word : Word} {i : Instr} (h : decodeWordValue n word = .ok i) :
    rowBytes i = some n := by
  unfold decodeWordValue at h
  split at h <;> cases h
  all_goals split <;> rfl

/-- A row encoded as a word has that word's width (R71). -/
theorem rowBytes_of_encode_word {i : Instr} {bs : List Byte} (h : encode i = .word bs) :
    rowBytes i = some bs.length := by
  cases i <;> cases h <;> rfl

/-- A word row has 1 to 4 bytes (R70). -/
theorem rowBytes_bounds {i : Instr} {n : Nat} (h : rowBytes i = some n) : 1 ≤ n ∧ n ≤ 4 := by
  cases i <;> cases h <;> decide

/-- An event row has no bytes (R78). -/
theorem rowBytes_of_isEvent {i : Instr} (h : isEvent i) : rowBytes i = none := by
  obtain ⟨e, he⟩ := h
  cases i <;> cases he <;> rfl

/-- A step takes the event offered before all others and leaves the state as it was (R60). -/
theorem step_offer {e : HostEvent} {i : Instr} (hd : decodeEvent e = .ok i) (s : State) : step (offer e s) = exec i s :=
  step_of_nextEvent (nextEvent_of_inbox_cons (offer_inbox s e)) hd

/-- The groups 0 to `n-1` are `n` groups (R102, R108). -/
theorem width_prefixMask {n : Nat} (h : n ≤ 4) : (width (prefixMask n)).val = n := by
  interval_cases n <;> rfl

/-- A running session of the width asked for is kept (log 10). -/
theorem sessionOfWidth_same {n : Nat} {s : State} (hd : s.status = .decoding) (hw : s.cfgWidth.val = n) :
    sessionOfWidth n s = s := if_pos ⟨hd, hw⟩

/-- Else a new session is opened (log 10). -/
theorem sessionOfWidth_new {n : Nat} {s : State} (h : s.status ≠ .decoding ∨ s.cfgWidth.val ≠ n) :
    sessionOfWidth n s = { loadSession (prefixMask n) none s with status := .decoding } :=
  if_neg fun ⟨hd, hw⟩ => h.elim (· hd) (· hw)

/-- Kept or new, the session runs and has the width asked for. -/
theorem sessionOfWidth_runs {n : Nat} (hn : n ≤ 4) (s : State) :
    (sessionOfWidth n s).status = .decoding ∧ (sessionOfWidth n s).cfgWidth.val = n := by
  by_cases h : s.status = .decoding ∧ s.cfgWidth.val = n
  · rw [sessionOfWidth_same h.1 h.2]
    exact h
  · rw [sessionOfWidth_new (not_and_or.mp h)]
    exact ⟨rfl, width_prefixMask hn⟩

/-- After a word in a new session only that word's bytes were consumed (log 10). -/
theorem wordReceived_sessionOfWidth_new {n : Nat} {s : State} (h : s.status ≠ .decoding ∨ s.cfgWidth.val ≠ n) :
    wordReceived n (sessionOfWidth n s) =
      { loadSession (prefixMask n) none s with status := .decoding, bytesConsumed := BitVec.ofNat 64 n } := by
  rw [sessionOfWidth_new h]
  simp [wordReceived, loadSession]

/-- The step after placing a word runs its row at the boundary of a session of its width (R58, R121, log 10). -/
theorem step_placeUnit_word {bytes : List Byte} {i : Instr} (hi : decode (.word bytes) = .ok i) (s : State) :
    step (placeUnit (.word bytes) s) = exec i (wordReceived bytes.length (sessionOfWidth bytes.length s)) := by
  obtain ⟨hpos, hle⟩ := rowBytes_bounds (rowBytes_of_decodeWordValue hi)
  obtain ⟨init, last, rfl⟩ : ∃ init last, bytes = init ++ [last] :=
    ⟨_, _, (List.dropLast_append_getLast (List.ne_nil_of_length_pos hpos)).symm⟩
  have hlen : (init ++ [last]).length = init.length + 1 := by simp
  have hplace : placeUnit (.word (init ++ [last])) s =
      offer (byteEvent last) (receive init (sessionOfWidth (init.length + 1) s)) := by
    simp [placeUnit]
  rw [hlen] at hle ⊢
  obtain ⟨hd, hw⟩ := sessionOfWidth_runs hle s
  rw [hplace, step_offer (i := .byte last) rfl, exec_byte_receive hd hw hi]

/-- The words of the probe have the whole bytes of the row (log 9). -/
theorem length_of_tableUnit_word {nbits w : Nat} {bytes : List Byte} (h : tableUnit nbits w = .word bytes) :
    bytes.length = nbits / 8 := by
  unfold tableUnit at h
  split at h <;> cases h
  simp

/-- What the probe reads is what the decoder reads of the unit placed (log 9). -/
theorem decode_tableUnit {nbits w : Nat} {i : Instr} (h : decodeTableWord nbits w = some i) :
    decode (tableUnit nbits w) = .ok i := by
  unfold decodeTableWord at h
  cases hd : decode (tableUnit nbits w) with
  | error x => rw [hd] at h; cases h
  | ok j => rw [hd] at h; cases h; rfl

/-- Settles O29: an event is taken by the next step, and of a word the next step takes the last byte. -/
theorem placedRowIsRunByTheNextStep : Obligations.PlacedRowIsRunByTheNextStep := by
  intro nbits w i s h
  have hdec := decode_tableUnit h
  rw [State.withFetchWord]
  cases hu : tableUnit nbits w with
  | event e =>
    rw [hu] at hdec
    have hnone := rowBytes_of_isEvent (isEvent_of_decodeEvent hdec)
    refine ⟨fun _ => step_offer hdec s, fun bs henc => ?_⟩
    rw [rowBytes_of_encode_word henc] at hnone
    cases hnone
  | word bytes =>
    rw [hu] at hdec
    have hbytes := rowBytes_of_decodeWordValue hdec
    refine ⟨fun hev => ?_, fun bs henc => ?_⟩
    · rw [rowBytes_of_isEvent hev] at hbytes
      cases hbytes
    · rw [rowBytes_of_encode_word henc] at hbytes
      obtain ⟨-, hle⟩ := rowBytes_bounds (rowBytes_of_encode_word henc)
      have hlen : bs.length = bytes.length := Option.some.inj hbytes
      obtain ⟨hd, hw⟩ := sessionOfWidth_runs hle s
      have hstep := step_placeUnit_word hdec s
      rw [← hlen] at hstep
      refine ⟨hlen.trans (length_of_tableUnit_word hu), _, hstep, hd, hw, fun hsd hsw => ?_,
        wordReceived_sessionOfWidth_new⟩
      rw [sessionOfWidth_same hsd hsw]
      rfl

/-! ### A word row outside its session -/

/-- Outside DECODING a word row changes nothing (R195, log 6). -/
theorem inSessionOfWidth_of_not_decoding {s : State} (h : s.status ≠ .decoding) (n : Nat) (k : State → State) :
    inSessionOfWidth n k s = .next s := if_neg h

/-- In a session of another width a word row stops by name (R56, R70, log 7). -/
theorem inSessionOfWidth_of_other_width {n : Nat} {s : State} (hd : s.status = .decoding) (hw : s.cfgWidth.val ≠ n)
    (k : State → State) : inSessionOfWidth n k s = .fault .wordNotOfSessionWidth := by
  rw [inSessionOfWidth, if_pos hd, if_neg hw]

/-- Every word row runs in a session of its width (R140). -/
theorem exec_wordRow {n : Nat} {row : Word → Instr} (h : sampleRow n = some row ∨ runRow n = some row) (w : Word)
    (s : State) : ∃ k, exec (row w) s = inSessionOfWidth n k s :=
  h.elim (fun hr => ⟨_, exec_sampleRow hr w s⟩) (fun hr => ⟨_, exec_runRow hr w s⟩)

/-- Settles O18: every word row asks first for its session. -/
theorem wordRowOutsideItsSession : Obligations.WordRowOutsideItsSession := by
  intro n row w s hrow
  obtain ⟨k, hk⟩ := exec_wordRow hrow w s
  rw [hk]
  exact ⟨fun hd => inSessionOfWidth_of_not_decoding hd n k, fun hd hw => inSessionOfWidth_of_other_width hd hw k⟩

/-! ### Reading the Trace -/

/-- The Trace is published in the DONE statuses (R33, R173). -/
theorem State.traceValid_iff_done (s : State) : s.traceValid = true ↔ ∃ d, s.status = .done d := by
  rw [s.traceValid_iff]
  constructor
  · rintro (h | h) <;> exact ⟨_, h⟩
  · rintro ⟨_ | _, h⟩
    · exact .inl h
    · exact .inr h

/-- A record of a published Trace is read (R54). -/
theorem traceRead_of_getElem? {i : Nat} {s : State} {r : Record} (hv : s.traceValid = true) (hr : s.trace[i]? = some r) :
    traceRead i s = .ok r := by
  simp only [traceRead, if_pos hv, hr]

/-- An index at or past `rec_count` names no record (R54). -/
theorem traceRead_of_recCount_le {i : Nat} {s : State} (hv : s.traceValid = true) (hi : s.recCount ≤ i) :
    traceRead i s = .error (.noSuchRecord i) := by
  have hnone : s.trace[i]? = none := List.getElem?_eq_none hi
  simp only [traceRead, if_pos hv, hnone]

/-- Nothing is read of a Trace that is not published (R54, R173). -/
theorem traceRead_of_not_valid {s : State} (hv : ¬ s.traceValid = true) (i : Nat) :
    traceRead i s = .error .traceNotPublished := if_neg hv

/-- Settles O46: a read looks first at whether the Trace is published, then at the index. -/
theorem traceReadOnlyWhenPublished : Obligations.TraceReadOnlyWhenPublished := by
  intro i s
  rw [← s.traceValid_iff_done]
  refine ⟨fun hv r hr => traceRead_of_getElem? hv hr, traceRead_of_recCount_le, fun hno => traceRead_of_not_valid ?_ i⟩
  rw [s.traceValid_iff_done]
  exact fun ⟨d, hd⟩ => hno d hd

end Sys2Proof.Machine

/-! PROOFS. The family 30_encoding.md: the decoder and the encoder (R70 to R79), the opcode table (R81), the expansion
of HOLD (R80), and the round trip of a list of levels (R150, R177). -/

namespace Sys2Proof.Machine

/-! ### The word rows -/

/-- Widths 1 to 4 have a SAMPLE row (R81). -/
theorem sampleRow_isSome {n : Nat} (h1 : 1 ≤ n) (h4 : n ≤ 4) : ∃ row, sampleRow n = some row := by
  interval_cases n <;> exact ⟨_, rfl⟩

/-- Widths 1 to 4 have a RUN row (R81). -/
theorem runRow_isSome {n : Nat} (h1 : 1 ≤ n) (h4 : n ≤ 4) : ∃ row, runRow n = some row := by
  interval_cases n <;> exact ⟨_, rfl⟩

/-- A RUN row has 1 to 4 bytes (R70). -/
theorem runRow_bounds {n : Nat} {row : Word → Instr} (h : runRow n = some row) : 1 ≤ n ∧ n ≤ 4 := by
  rcases runRow_cases h with ⟨rfl, -⟩ | ⟨rfl, -⟩ | ⟨rfl, -⟩ | ⟨rfl, -⟩ <;> decide

/-- No instruction is both a SAMPLE row and a RUN row (R125). -/
theorem sampleRow_ne_runRow {n m : Nat} {row row' : Word → Instr} (hs : sampleRow n = some row)
    (hr : runRow m = some row') (v c : Word) : row v ≠ row' c := by
  intro h
  rcases sampleRow_cases hs with ⟨-, rfl⟩ | ⟨-, rfl⟩ | ⟨-, rfl⟩ | ⟨-, rfl⟩ <;>
    rcases runRow_cases hr with ⟨-, rfl⟩ | ⟨-, rfl⟩ | ⟨-, rfl⟩ | ⟨-, rfl⟩ <;> cases h

theorem wellFormed_sampleRow {n : Nat} {row : Word → Instr} (h : sampleRow n = some row) (v : Word) :
    WellFormed (row v) ↔ PayloadFits n v := by
  rcases sampleRow_cases h with ⟨rfl, rfl⟩ | ⟨rfl, rfl⟩ | ⟨rfl, rfl⟩ | ⟨rfl, rfl⟩ <;> rfl

theorem wellFormed_runRow {n : Nat} {row : Word → Instr} (h : runRow n = some row) (c : Word) :
    WellFormed (row c) ↔ PayloadFits n c := by
  rcases runRow_cases h with ⟨rfl, rfl⟩ | ⟨rfl, rfl⟩ | ⟨rfl, rfl⟩ | ⟨rfl, rfl⟩ <;> rfl

/-! ### Decoding an encoded instruction -/

theorem encode_sampleRow {n : Nat} {row : Word → Instr} (h : sampleRow n = some row) (v : Word) :
    encode (row v) = .word (wordBytes n v) := by
  rcases sampleRow_cases h with ⟨rfl, rfl⟩ | ⟨rfl, rfl⟩ | ⟨rfl, rfl⟩ | ⟨rfl, rfl⟩ <;> rfl

theorem encode_runRow {n : Nat} {row : Word → Instr} (h : runRow n = some row) (c : Word) :
    encode (row c) = .word (wordBytes n (runWordOf n c)) := by
  rcases runRow_cases h with ⟨rfl, rfl⟩ | ⟨rfl, rfl⟩ | ⟨rfl, rfl⟩ | ⟨rfl, rfl⟩ <;> rfl

/-- A word with the flag clear is the SAMPLE row of its value (R73, R74). -/
theorem decodeWordValue_of_flag_clear {n : Nat} {row : Word → Instr} (h : sampleRow n = some row) {w : Word}
    (hf : runFlag n w = false) : decodeWordValue n w = .ok (row w) := by
  rcases sampleRow_cases h with ⟨rfl, rfl⟩ | ⟨rfl, rfl⟩ | ⟨rfl, rfl⟩ | ⟨rfl, rfl⟩ <;> simp [decodeWordValue, hf]

/-- A word with the flag set is the RUN row of its payload (R72, R74). -/
theorem decodeWordValue_of_flag_set {n : Nat} {row : Word → Instr} (h : runRow n = some row) {w : Word}
    (hf : runFlag n w = true) : decodeWordValue n w = .ok (row (runPayload n w)) := by
  rcases runRow_cases h with ⟨rfl, rfl⟩ | ⟨rfl, rfl⟩ | ⟨rfl, rfl⟩ | ⟨rfl, rfl⟩ <;> simp [decodeWordValue, hf]

/-- The bytes of a word decode as the word does (R71). -/
theorem decode_wordBytes {n : Nat} {w : Word} (hw : lowBits (8 * n) w = w) :
    decode (.word (wordBytes n w)) = decodeWordValue n w := by
  rw [decode, decodeWord, length_wordBytes, wireWord_wordBytes, hw]

/-- The flag of a SAMPLE word is clear, so its value comes back (R73, R79). -/
theorem decode_encode_sampleRow {n : Nat} {row : Word → Instr} (h : sampleRow n = some row) {v : Word}
    (hv : PayloadFits n v) : decode (encode (row v)) = .ok (row v) := by
  have hlow : lowBits (8 * n) v = v :=
    lowBits_of_lt (Nat.lt_of_lt_of_le hv (Nat.pow_le_pow_right (by decide) (Nat.sub_le _ _)))
  rw [encode_sampleRow h, decode_wordBytes hlow, decodeWordValue_of_flag_clear h (runFlag_of_fits hv)]

/-- The flag of a RUN word is set, and its payload is the count (R72, R79). -/
theorem decode_encode_runRow {n : Nat} {row : Word → Instr} (h : runRow n = some row) {c : Word}
    (hc : PayloadFits n c) : decode (encode (row c)) = .ok (row c) := by
  have hn := runRow_bounds h
  rw [encode_runRow h, decode_wordBytes (lowBits_runWordOf hn.1 hc),
    decodeWordValue_of_flag_set h (runFlag_runWordOf hn c), runPayload_runWordOf hc]

/-- Settles O3: the word rows by their flag and payload; an event has its own code and its operands beside it. -/
theorem decodeOfEncodeIsTheInstruction : Obligations.DecodeOfEncodeIsTheInstruction := by
  intro i hwf
  rcases instr_cases i with ⟨n, row, v, hrow, rfl⟩ | ⟨n, row, c, hrow, rfl⟩ | rfl | ⟨m, B, rfl⟩ | ⟨b, rfl⟩ | rfl | rfl
  · exact decode_encode_sampleRow hrow ((wellFormed_sampleRow hrow v).mp hwf)
  · exact decode_encode_runRow hrow ((wellFormed_runRow hrow c).mp hwf)
  all_goals rfl

/-! ### Encoding a decoded word -/

/-- A word of `n` bytes with the flag clear is the encoding of its well-formed SAMPLE row. -/
theorem sampleRow_of_flag_clear {n : Nat} {row : Word → Instr} (h : sampleRow n = some row) {w : Word}
    (hw : w.toNat < 2 ^ (8 * n)) (hf : runFlag n w = false) :
    WellFormed (row w) ∧ encode (row w) = .word (wordBytes n w) :=
  ⟨(wellFormed_sampleRow h w).mpr (fits_of_runFlag hw hf), encode_sampleRow h w⟩

/-- A word of `n` bytes with the flag set is the encoding of the well-formed RUN row of its payload. -/
theorem runRow_of_flag_set {n : Nat} {row : Word → Instr} (h : runRow n = some row) {w : Word}
    (hw : w.toNat < 2 ^ (8 * n)) (hf : runFlag n w = true) :
    WellFormed (row (runPayload n w)) ∧ encode (row (runPayload n w)) = .word (wordBytes n w) := by
  refine ⟨(wellFormed_runRow h _).mpr (runPayload_fits n w), ?_⟩
  rw [encode_runRow h, runWordOf_runPayload (runRow_bounds h) hw hf]

/-- A word of no byte or of more than four is refused with its length (R70). -/
theorem decodeWordValue_of_length {n : Nat} (h : n = 0 ∨ 4 < n) (w : Word) :
    decodeWordValue n w = .error (.wordLength n) := by
  unfold decodeWordValue
  split
  case h_5 => rfl
  all_goals omega

/-- Settles O4: the flag says which of the two rows of its width a word is. -/
theorem everyWordHasOneRow : Obligations.EveryWordHasOneRow := by
  intro bs
  refine ⟨fun h1 h4 => ?_, fun hlen => decodeWordValue_of_length hlen _⟩
  have hbytes := wordBytes_wireWord h4
  have hlt := wireWord_lt bs
  cases hf : runFlag bs.length (wireWord bs) with
  | false =>
    obtain ⟨row, hrow⟩ := sampleRow_isSome h1 h4
    obtain ⟨hwf, henc⟩ := sampleRow_of_flag_clear hrow hlt hf
    exact ⟨_, decodeWordValue_of_flag_clear hrow hf, hwf, by rw [henc, hbytes]⟩
  | true =>
    obtain ⟨row, hrow⟩ := runRow_isSome h1 h4
    obtain ⟨hwf, henc⟩ := runRow_of_flag_set hrow hlt hf
    exact ⟨_, decodeWordValue_of_flag_set hrow hf, hwf, by rw [henc, hbytes]⟩

/-! ### The opcode table -/

/-- The match of a RUN row is no empty mask (R81). -/
theorem flagBit_ne_zero {n : Nat} (h1 : 1 ≤ n) (h4 : n ≤ 4) : 1#32 <<< (8 * n - 1) ≠ 0#32 := by
  interval_cases n <;> decide

theorem and_flagBit_eq_flagBit_iff {n : Nat} (h1 : 1 ≤ n) (h4 : n ≤ 4) (w : Word) :
    w &&& (1#32 <<< (8 * n - 1)) = 1#32 <<< (8 * n - 1) ↔ runFlag n w = true := by
  rw [and_flagBit]
  cases runFlag n w <;> simp [(flagBit_ne_zero h1 h4).symm]

theorem and_flagBit_eq_zero_iff {n : Nat} (h1 : 1 ≤ n) (h4 : n ≤ 4) (w : Word) :
    w &&& (1#32 <<< (8 * n - 1)) = 0#32 ↔ runFlag n w = false := by
  rw [and_flagBit]
  cases runFlag n w <;> simp [flagBit_ne_zero h1 h4]

/-- A word is in the RUN row of its width iff its flag is set (R81). -/
theorem decodeWordValue_runRow_iff {n : Nat} (h1 : 1 ≤ n) (h4 : n ≤ 4) (w : Word) :
    (∃ row c, runRow n = some row ∧ decodeWordValue n w = .ok (row c)) ↔ runFlag n w = true := by
  constructor
  · rintro ⟨row, c, hrow, hdec⟩
    by_contra hf
    obtain ⟨row', hrow'⟩ := sampleRow_isSome h1 h4
    rw [decodeWordValue_of_flag_clear hrow' (by simpa using hf)] at hdec
    exact sampleRow_ne_runRow hrow' hrow w c (Except.ok.inj hdec)
  · intro hf
    obtain ⟨row, hrow⟩ := runRow_isSome h1 h4
    exact ⟨row, _, hrow, decodeWordValue_of_flag_set hrow hf⟩

/-- A word is in the SAMPLE row of its width iff its flag is clear (R81). -/
theorem decodeWordValue_sampleRow_iff {n : Nat} (h1 : 1 ≤ n) (h4 : n ≤ 4) (w : Word) :
    (∃ row v, sampleRow n = some row ∧ decodeWordValue n w = .ok (row v)) ↔ runFlag n w = false := by
  constructor
  · rintro ⟨row, v, hrow, hdec⟩
    by_contra hf
    obtain ⟨row', hrow'⟩ := runRow_isSome h1 h4
    rw [decodeWordValue_of_flag_set hrow' (by simpa using hf)] at hdec
    exact sampleRow_ne_runRow hrow hrow' v _ (Except.ok.inj hdec).symm
  · intro hf
    obtain ⟨row, hrow⟩ := sampleRow_isSome h1 h4
    exact ⟨row, _, hrow, decodeWordValue_of_flag_clear hrow hf⟩

/-- An event keeps its code through decoding: what it decodes to is encoded with that code (R78). -/
theorem code_of_decodeEvent {e e' : HostEvent} {i : Instr} (hdec : decodeEvent e = .ok i) (henc : encode i = .event e') :
    e.code = e'.code := by
  unfold decodeEvent at hdec
  split at hdec <;> cases hdec <;> cases henc <;> assumption

/-- Codes 5 to 7 are no event (R78). -/
theorem decodeEvent_of_code_ge {e : HostEvent} (h : 5 ≤ e.code.toNat) : decodeEvent e = .error (.eventCode e.code) := by
  unfold decodeEvent
  split
  case h_6 => rfl
  all_goals simp_all

/-- Settles O5: the mask picks the flag of a word, and an event is told by its code alone. -/
theorem opcodeTableRowsByMaskAndMatch : Obligations.OpcodeTableRowsByMaskAndMatch := by
  refine ⟨fun n w h1 h4 hw => ?_, fun e => ?_⟩
  · rw [decode_wordBytes (lowBits_of_lt hw), decodeWordValue_runRow_iff h1 h4, decodeWordValue_sampleRow_iff h1 h4]
    exact ⟨and_flagBit_eq_flagBit_iff h1 h4 w, and_flagBit_eq_zero_iff h1 h4 w⟩
  · obtain ⟨c, m, B, b⟩ := e
    refine ⟨⟨fun h => code_of_decodeEvent h rfl, ?_⟩, ⟨fun ⟨_, _, h⟩ => code_of_decodeEvent h rfl, ?_⟩,
      ⟨fun ⟨_, h⟩ => code_of_decodeEvent h rfl, ?_⟩, ⟨fun h => code_of_decodeEvent h rfl, ?_⟩,
      ⟨fun h => code_of_decodeEvent h rfl, ?_⟩⟩ <;> rintro rfl
    · rfl
    · exact ⟨m, B, rfl⟩
    · exact ⟨b, rfl⟩
    · rfl
    · rfl

/-- Settles O8: the five codes by computation; a step that takes any other stops on what the decoder refuses. -/
theorem hostEventCodes : Obligations.HostEventCodes := by
  refine ⟨fun m B b => ⟨rfl, rfl, rfl, rfl, rfl⟩, fun s e es hcode hq => ?_⟩
  simp only [step, nextEvent_of_inbox_cons hq, decodeEvent_of_code_ge hcode]

/-- Settles O7: each word and event is decoded by computation. -/
theorem decodedWordsOfTheSpec : Obligations.DecodedWordsOfTheSpec :=
  ⟨rfl, rfl, rfl, rfl, rfl, rfl, rfl, rfl, rfl, rfl, rfl⟩

/-! ### HOLD -/

theorem payloadLimit_pos (n : Nat) : 0 < payloadLimit n := Nat.two_pow_pos _

/-- The last count of `HOLD d` is what the full RUN words leave (R80). -/
theorem holdCounts_eq (n d : Nat) :
    holdCounts n d =
      List.replicate ((d - 1) / payloadLimit n) (payloadLimit n - 1) ++ [(d - 1) % payloadLimit n] := by
  rw [holdCounts, Nat.mod_eq_sub_div_mul]

/-- The durations of the RUN words of `HOLD d` sum to `d` (R80). -/
theorem sum_holdCounts (n : Nat) {d : Nat} (hd : 1 ≤ d) : ((holdCounts n d).map (· + 1)).sum = d := by
  have hfull : payloadLimit n - 1 + 1 = payloadLimit n := Nat.sub_add_cancel (payloadLimit_pos n)
  have hdiv := Nat.div_add_mod' (d - 1) (payloadLimit n)
  rw [holdCounts_eq, List.map_append, List.map_replicate, List.sum_append, List.sum_replicate, hfull, smul_eq_mul,
    List.map_singleton, List.sum_singleton, ← Nat.add_assoc, hdiv, Nat.sub_add_cancel hd]

/-- The counts of `HOLD d` are legal (R80). -/
theorem lt_of_mem_holdCounts {n d c : Nat} (h : c ∈ holdCounts n d) : c < payloadLimit n := by
  have hpos := payloadLimit_pos n
  rw [holdCounts_eq, List.mem_append, List.mem_replicate, List.mem_singleton] at h
  rcases h with ⟨-, rfl⟩ | rfl
  · exact Nat.sub_one_lt_of_lt hpos
  · exact Nat.mod_lt _ hpos

/-- The bytes of the RUN word of stored count `c` (R79). -/
def runWordBytes (n c : Nat) : List Byte := wordBytes n (runWordOf n (BitVec.ofNat 32 c))

theorem runBytes_of_legal {n c : Nat} (h : c < payloadLimit n) : runBytes n c = some (runWordBytes n c) := if_pos h

/-- The bytes of a list of legal RUN words, one word after another (R79). -/
theorem runsBytes_of_legal {n : Nat} {cs : List Nat} (h : ∀ c ∈ cs, c < payloadLimit n) :
    runsBytes n cs = some (cs.flatMap (runWordBytes n)) := by
  have hwords : cs.mapM (runBytes n) = some (cs.map (runWordBytes n)) := by
    induction cs with
    | nil => rfl
    | cons c cs ih =>
      rw [List.forall_mem_cons] at h
      simp [runBytes_of_legal h.1, ih h.2]
  rw [runsBytes, hwords, List.flatMap_def]
  rfl

/-- `HOLD d` has bytes: those of its RUN words (R80). -/
theorem holdBytes_of_pos (n : Nat) {d : Nat} (hd : 1 ≤ d) :
    holdBytes n d = some ((holdCounts n d).flatMap (runWordBytes n)) := by
  rw [holdBytes, if_neg (Nat.ne_of_gt hd), runsBytes_of_legal fun _ => lt_of_mem_holdCounts]

/-- Settles O42: the full words and the rest add up to `d`, and all are legal RUN words. -/
theorem holdDurationsAddUp : Obligations.HoldDurationsAddUp :=
  fun n _ _ _ hd => ⟨sum_holdCounts n hd, fun _ => lt_of_mem_holdCounts, by rw [holdBytes_of_pos n hd]; rfl, rfl⟩

/-! ### Delivering events

What an instruction does does not depend on the host's queue, so a run that takes events from the queue is a run of
the instructions they decode to. -/

/-- The state with the events `q` offered instead of its own. -/
def setInbox (q : List HostEvent) (s : State) : State := { s with inbox := q }

/-- What an operation leaves, with the events `q` offered instead. -/
def Progress.setInbox (q : List HostEvent) : Progress → Progress
  | .going s => .going (Machine.setInbox q s)
  | .ended s => .ended (Machine.setInbox q s)

/-- What an instruction answers, with the events `q` offered instead. -/
def outcomeSetInbox (q : List HostEvent) : Host.Outcome State Fault Refusal → Host.Outcome State Fault Refusal
  | .next s    => .next (setInbox q s)
  | .fault f   => .fault f
  | .refused r => .refused r

section
variable (q : List HostEvent) (s : State)

theorem boundaryCheck_setInbox : boundaryCheck (setInbox q s) = setInbox q (boundaryCheck s) := by
  rw [boundaryCheck, boundaryCheck, apply_ite (setInbox q), apply_ite (setInbox q)]
  rfl

theorem sampleOp_setInbox (v : Word) : sampleOp v (setInbox q s) = (sampleOp v s).setInbox q := by
  rw [sampleOp, sampleOp, apply_ite (Progress.setInbox q)]
  rfl

theorem runOp_setInbox (c : Word) : runOp c (setInbox q s) = (runOp c s).setInbox q := by
  rw [runOp, runOp, apply_ite (Progress.setInbox q), apply_ite (Progress.setInbox q)]
  rfl

theorem andThen_boundaryCheck_setInbox (p : Progress) :
    (p.setInbox q).andThen boundaryCheck = setInbox q (p.andThen boundaryCheck) := by
  cases p with
  | going s => exact boundaryCheck_setInbox q s
  | ended s => rfl

theorem processClass_setInbox (w : WordClass) : processClass w (setInbox q s) = setInbox q (processClass w s) := by
  cases w with
  | run c => rw [processClass, processClass, runOp_setInbox, andThen_boundaryCheck_setInbox]
  | sample v => rw [processClass, processClass, sampleOp_setInbox, andThen_boundaryCheck_setInbox]

theorem takeByte_setInbox (b : Byte) : takeByte b (setInbox q s) = setInbox q (takeByte b s) := by
  rw [takeByte, takeByte, apply_ite (setInbox q), processWord, processWord, ← processClass_setInbox]
  rfl

theorem openSession_setInbox : openSession (setInbox q s) = setInbox q (openSession s) := by
  rw [openSession, openSession, apply_ite (setInbox q), apply_ite (setInbox q)]
  rfl

theorem inSessionOfWidth_setInbox (n : Nat) {k : State → State} (hk : k (setInbox q s) = setInbox q (k s)) :
    inSessionOfWidth n k (setInbox q s) = outcomeSetInbox q (inSessionOfWidth n k s) := by
  rw [inSessionOfWidth, inSessionOfWidth, hk, apply_ite (outcomeSetInbox q), apply_ite (outcomeSetInbox q)]
  rfl

/-- An instruction answers the same whatever the host has offered, and leaves the queue as it is. -/
theorem exec_setInbox (i : Instr) : exec i (setInbox q s) = outcomeSetInbox q (exec i s) := by
  rcases instr_cases i with ⟨n, row, v, hr, rfl⟩ | ⟨n, row, c, hr, rfl⟩ | rfl | ⟨m, B, rfl⟩ | ⟨b, rfl⟩ | rfl | rfl
  · rw [exec_sampleRow hr, exec_sampleRow hr]
    exact inSessionOfWidth_setInbox q s n (processClass_setInbox q s _)
  · rw [exec_runRow hr, exec_runRow hr]
    exact inSessionOfWidth_setInbox q s n (processClass_setInbox q s _)
  · rfl
  · rw [exec, exec, execStart, execStart, apply_ite (outcomeSetInbox q), outcomeSetInbox, outcomeSetInbox,
      ← openSession_setInbox]
    rfl
  · rw [exec, exec, execByte, execByte, takeByte_setInbox, apply_ite (outcomeSetInbox q)]
    rfl
  · rw [exec, exec, execEos, execEos, apply_ite (outcomeSetInbox q), apply_ite (outcomeSetInbox q)]
    rfl
  · rw [exec, exec, execCancel, execCancel, apply_ite (outcomeSetInbox q), apply_ite (outcomeSetInbox q)]
    rfl

end

/-- The event offered first is the first to run. -/
theorem deliver_cons {e : HostEvent} {i : Instr} {s t : State} (hdec : decodeEvent e = .ok i) (h : exec i s = .next t)
    (es : List HostEvent) : deliver (e :: es) s = deliver es t := by
  have hstep : step (setInbox (e :: es) s) = .next (setInbox es t) := by
    have htaken : step (setInbox (e :: es) s) = exec i (setInbox es s) :=
      step_of_nextEvent (nextEvent_of_inbox_cons rfl) hdec
    rw [htaken, exec_setInbox, h, outcomeSetInbox]
  exact run_step es.length hstep

/-- A list of instructions answers a state only if its first does. -/
theorem execAll_cons_next {i : Instr} {is : List Instr} {s t : State} (h : execAll (i :: is) s = .next t) :
    ∃ u, exec i s = .next u ∧ execAll is u = .next t := by
  rw [execAll] at h
  split at h
  · exact ⟨_, ‹_›, h⟩
  · cases h
  · cases h

theorem execAll_append {is : List Instr} {s t : State} (h : execAll is s = .next t) (js : List Instr) :
    execAll (is ++ js) s = execAll js t := by
  induction is generalizing s with
  | nil => cases h; rfl
  | cons i is ih =>
    obtain ⟨u, hi, his⟩ := execAll_cons_next h
    rw [List.cons_append, execAll_cons hi, ih his]

/-- Delivered events run the instructions they decode to, one after another, and none is left (R190). -/
theorem deliver_eq_of_execAll {es : List HostEvent} {is : List Instr} {s t : State}
    (hdec : es.map decodeEvent = is.map .ok) (h : execAll is s = .next t) : deliver es s = .next (setInbox [] t) := by
  induction es generalizing is s with
  | nil =>
    obtain rfl : is = [] := List.map_eq_nil_iff.mp hdec.symm
    cases h
    rfl
  | cons e es ih =>
    cases is with
    | nil => cases hdec
    | cons i is =>
      obtain ⟨he, hes⟩ := List.cons.inj hdec
      obtain ⟨u, hi, his⟩ := execAll_cons_next h
      rw [deliver_cons he hi, ih hes his]

/-! ### The words of a list of levels -/

/-- A legal value or count is the operand of its word (R79). -/
theorem toNat_ofNat_of_legal {n : Nat} (hn : n ≤ 4) {x : Nat} (hx : x < payloadLimit n) :
    (BitVec.ofNat 32 x).toNat = x := by
  have hle : payloadLimit n ≤ 2 ^ 32 := Nat.pow_le_pow_right (by decide) (by omega)
  rw [BitVec.toNat_ofNat, Nat.mod_eq_of_lt (by omega)]

theorem payloadFits_of_legal {n : Nat} (hn : n ≤ 4) {x : Nat} (hx : x < payloadLimit n) :
    PayloadFits n (BitVec.ofNat 32 x) := by
  rw [PayloadFits, toNat_ofNat_of_legal hn hx]
  exact hx

/-- A legal LEVEL item is its SAMPLE word and the RUN words of its HOLD (R80). -/
theorem levelBytes_eq_some {n v d : Nat} {bs : List Byte} (h : levelBytes n v d = some bs) :
    v < payloadLimit n ∧ 1 ≤ d ∧ bs = wordBytes n (BitVec.ofNat 32 v) ++
      (holdCounts n d).flatMap (runWordBytes n) := by
  have hv : v < payloadLimit n := by
    by_contra hv
    simp [levelBytes, sampleBytes, hv] at h
  have hd : 1 ≤ d := by
    by_contra hd
    obtain rfl : d = 0 := by omega
    simp [levelBytes, holdBytes] at h
  refine ⟨hv, hd, ?_⟩
  simpa [levelBytes, sampleBytes, hv, holdBytes_of_pos n hd] using h.symm

/-- A SAMPLE word with room in the buffer appends its record and reaches the boundary check (R141). -/
theorem decodeSample_of_room {s : State} (h : s.params.traceCapacity ≠ some s.recCount) (v : Word) :
    decodeSample v s = boundaryCheck
      { s with trace := s.trace ++ [⟨sampleValue s v, s.cursor⟩], lastValid := true, lastValue := sampleValue s v } := by
  rcases processClass_sample (sampleValue s v) s with ⟨hfull, _⟩ | ⟨_, e⟩
  · exact absurd ((traceFull_iff s).mp hfull) h
  · exact e

/-- A RUN word with a level set and short of overflow advances the cursor and reaches the boundary check (R142). -/
theorem decodeRun_of_fits {s : State} {c : Word} (hv : s.lastValid = true) (hf : s.cursorAfter c < 2 ^ 64) :
    decodeRun c s = boundaryCheck { s with cursor := BitVec.ofNat 64 (s.cursorAfter c) } := by
  rcases processClass_run c s with ⟨hno, _⟩ | ⟨_, hover, _⟩ | ⟨_, _, e⟩
  · rw [hv] at hno
    cases hno
  · omega
  · exact e

/-! ### A session between two words -/

/-- The SampleValue of a word in a session of mask `m` (R124). -/
def levelValue (m : Word) (p : Params) (w : Word) : Word := place p.groupPlacement (groups m) w &&& m

/-- A session of mask `m` without a budget at a word boundary, no cancel pending, with the records `tr` and the cursor
at `time`. -/
structure LevelSession (m : Word) (p : Params) (tr : List Record) (time : Nat) (s : State) : Prop where
  run       : s.status = .decoding
  boundary  : s.waCount.val = 0
  accClear  : s.waAcc = 0#32
  cfgMask   : s.cfgMask = m
  cfgGroups : s.cfgGroups = groups m
  cfgWidth  : s.cfgWidth = width m
  noBudget  : s.cfgBudget = none
  noCancel  : s.cancelPending = false
  params    : s.params = p
  trace     : s.trace = tr
  cursor    : s.cursor.toNat = time
  lastValid : tr ≠ [] → s.lastValid = true

namespace LevelSession

variable {m : Word} {p : Params} {tr : List Record} {time : Nat} {s : State}

/-- Without a budget and a pending cancel the boundary check does nothing (R146). -/
theorem boundaryCheck_eq (h : LevelSession m p tr time s) : boundaryCheck s = s :=
  boundaryCheck_eq_self h.noCancel ((budgetReached_eq_false_iff s).mpr fun B hB => by rw [h.noBudget] at hB; cases hB)

theorem sampleValue_eq (h : LevelSession m p tr time s) (w : Word) : sampleValue s w = levelValue m p w := by
  rw [sampleValue, h.params, h.cfgGroups, h.cfgMask, levelValue]

/-- A `LevelSession` does not look at the count of bytes. -/
theorem with_bytesConsumed (h : LevelSession m p tr time s) (n : Time) :
    LevelSession m p tr time { s with bytesConsumed := n } :=
  { h with run := h.run }

/-- The bytes of a word of the session run the word's row, and but for the count of bytes the session it runs in is as
before (R58, R121). -/
theorem execAll_word (h : LevelSession m p tr time s) {w : Word} {i : Instr}
    (hdec : decode (.word (wordBytes (width m).val w)) = .ok i) :
    ∃ u, LevelSession m p tr time u ∧ execAll ((wordBytes (width m).val w).map .byte) s = exec i u := by
  have hlen : (wordBytes (width m).val w).length = s.cfgWidth.val := by rw [length_wordBytes, h.cfgWidth]
  have hrun := bytesOfAWordRunItsRow _ i s h.run h.boundary h.accClear hlen hdec
  exact ⟨_, h.with_bytesConsumed _, hrun⟩

/-- A SAMPLE row with room in the buffer appends its record at the cursor (R141). -/
theorem exec_sample (h : LevelSession m p tr time s) {row : Word → Instr}
    (hrow : sampleRow (width m).val = some row) (hroom : p.traceCapacity ≠ some tr.length) (v : Word) :
    ∃ t, exec (row v) s = .next t ∧
      LevelSession m p (tr ++ [⟨levelValue m p v, BitVec.ofNat 64 time⟩]) time t := by
  have hroom' : s.params.traceCapacity ≠ some s.recCount := by
    rw [h.params, State.recCount, h.trace]
    exact hroom
  have hrec : s.trace ++ [⟨sampleValue s v, s.cursor⟩] = tr ++ [⟨levelValue m p v, BitVec.ofNat 64 time⟩] := by
    rw [h.trace, h.sampleValue_eq, ← h.cursor, BitVec.ofNat_toNat, BitVec.setWidth_eq]
  have hnext : LevelSession m p (tr ++ [⟨levelValue m p v, BitVec.ofNat 64 time⟩]) time
      { s with trace := s.trace ++ [⟨sampleValue s v, s.cursor⟩], lastValid := true, lastValue := sampleValue s v } :=
    { h with trace := hrec, lastValid := fun _ => rfl }
  refine ⟨_, ?_, hnext⟩
  rw [exec_sampleRow hrow, inSessionOfWidth_eq _ h.run (congrArg Fin.val h.cfgWidth), decodeSample_of_room hroom',
    hnext.boundaryCheck_eq]

/-- A RUN row after a record advances the cursor by its duration (R142). -/
theorem exec_run (h : LevelSession m p tr time s) {row : Word → Instr}
    (hrow : runRow (width m).val = some row) (htr : tr ≠ []) {c : Word} (hf : time + (c.toNat + 1) < 2 ^ 64) :
    ∃ t, exec (row c) s = .next t ∧ LevelSession m p tr (time + (c.toNat + 1)) t := by
  have hafter : s.cursorAfter c = time + (c.toNat + 1) := by rw [State.cursorAfter, h.cursor, Nat.add_assoc]
  have hfits : s.cursorAfter c < 2 ^ 64 := hafter ▸ hf
  have hnext : LevelSession m p tr (time + (c.toNat + 1)) { s with cursor := BitVec.ofNat 64 (s.cursorAfter c) } :=
    { h with cursor := (toNat_cursorAfter hfits).trans hafter }
  refine ⟨_, ?_, hnext⟩
  rw [exec_runRow hrow, inSessionOfWidth_eq _ h.run (congrArg Fin.val h.cfgWidth),
    decodeRun_of_fits (h.lastValid htr) hfits, hnext.boundaryCheck_eq]

/-- The bytes of a legal SAMPLE word, with room in the buffer, append its record. -/
theorem execAll_sampleBytes (h : LevelSession m p tr time s) (hm : m ≠ 0#32) {v : Nat}
    (hv : v < payloadLimit (width m).val) (hroom : p.traceCapacity ≠ some tr.length) :
    ∃ t, execAll ((wordBytes (width m).val (BitVec.ofNat 32 v)).map .byte) s = .next t ∧
      LevelSession m p (tr ++ [⟨levelValue m p (BitVec.ofNat 32 v), BitVec.ofNat 64 time⟩]) time t := by
  have hn4 : (width m).val ≤ 4 := Fin.is_le _
  obtain ⟨row, hrow⟩ := sampleRow_isSome (Nat.pos_of_ne_zero ((width_eq_zero_iff m).not.mpr hm)) hn4
  have hdec := decode_encode_sampleRow hrow (payloadFits_of_legal hn4 hv)
  rw [encode_sampleRow hrow] at hdec
  obtain ⟨u, hu, hrun⟩ := h.execAll_word hdec
  rw [hrun]
  exact hu.exec_sample hrow hroom _

/-- The bytes of a legal RUN word after a record advance the cursor. -/
theorem execAll_runBytes (h : LevelSession m p tr time s) (hm : m ≠ 0#32) (htr : tr ≠ []) {c : Nat}
    (hc : c < payloadLimit (width m).val) (hf : time + (c + 1) < 2 ^ 64) :
    ∃ t, execAll ((runWordBytes (width m).val c).map .byte) s = .next t ∧
      LevelSession m p tr (time + (c + 1)) t := by
  have hn4 : (width m).val ≤ 4 := Fin.is_le _
  obtain ⟨row, hrow⟩ := runRow_isSome (Nat.pos_of_ne_zero ((width_eq_zero_iff m).not.mpr hm)) hn4
  have hdec := decode_encode_runRow hrow (payloadFits_of_legal hn4 hc)
  rw [encode_runRow hrow] at hdec
  obtain ⟨u, hu, hrun⟩ := h.execAll_word hdec
  have hval := toNat_ofNat_of_legal hn4 hc
  rw [← hval] at hf
  have hadv := hu.exec_run hrow htr hf
  rw [runWordBytes, hrun]
  rwa [hval] at hadv

/-- RUN words after a record advance the cursor by the sum of their durations (R143). -/
theorem execAll_runsBytes (h : LevelSession m p tr time s) (hm : m ≠ 0#32) (htr : tr ≠ []) {cs : List Nat}
    (hcs : ∀ c ∈ cs, c < payloadLimit (width m).val) (hf : time + (cs.map (· + 1)).sum < 2 ^ 64) :
    ∃ t, execAll ((cs.flatMap (runWordBytes (width m).val)).map .byte) s = .next t ∧
      LevelSession m p tr (time + (cs.map (· + 1)).sum) t := by
  induction cs generalizing time s with
  | nil => exact ⟨s, rfl, h⟩
  | cons c cs ih =>
    rw [List.forall_mem_cons] at hcs
    rw [List.map_cons, List.sum_cons, ← Nat.add_assoc] at hf ⊢
    obtain ⟨u, hrun, hu⟩ := h.execAll_runBytes hm htr hcs.1 (by omega)
    rw [List.flatMap_cons, List.map_append, execAll_append hrun]
    exact ih hu hcs.2 hf

/-- A legal LEVEL item appends one record and holds its level for its duration (R80, R150). -/
theorem execAll_levelBytes (h : LevelSession m p tr time s) (hm : m ≠ 0#32) {v d : Nat} {bs : List Byte}
    (hbs : levelBytes (width m).val v d = some bs) (hroom : p.traceCapacity ≠ some tr.length)
    (hf : time + d < 2 ^ 64) :
    ∃ t, execAll (bs.map .byte) s = .next t ∧
      LevelSession m p (tr ++ [⟨levelValue m p (BitVec.ofNat 32 v), BitVec.ofNat 64 time⟩]) (time + d) t := by
  obtain ⟨hv, hd, rfl⟩ := levelBytes_eq_some hbs
  have hsum := sum_holdCounts (width m).val hd
  obtain ⟨u, hsample, hu⟩ := h.execAll_sampleBytes hm hv hroom
  have hhold := hu.execAll_runsBytes hm (by simp) (fun _ => lt_of_mem_holdCounts) (hsum.symm ▸ hf)
  rw [hsum] at hhold
  rw [List.map_append, execAll_append hsample]
  exact hhold

/-- Legal LEVEL items within the capacity append one record per level, each at the durations before it (R150). -/
theorem execAll_levels (h : LevelSession m p tr time s) (hm : m ≠ 0#32) {levels : List (Nat × Nat)}
    {bytes : List (List Byte)}
    (hbytes : levels.mapM (fun (v, d) => levelBytes (width m).val v d) = some bytes)
    (hroom : ∀ cap, p.traceCapacity = some cap → tr.length + levels.length ≤ cap)
    (hf : time + totalDuration levels < 2 ^ 64) :
    ∃ t, execAll (bytes.flatten.map .byte) s = .next t ∧
      LevelSession m p (tr ++ levelTrace (levelValue m p) time levels) (time + totalDuration levels) t := by
  induction levels generalizing tr time s bytes with
  | nil =>
    obtain rfl : [] = bytes := Option.some.inj hbytes
    rw [levelTrace, List.append_nil]
    exact ⟨s, rfl, h⟩
  | cons l ls ih =>
    obtain ⟨v, d⟩ := l
    obtain ⟨bs, hbs, rest, hrest, rfl⟩ :
        ∃ bs, levelBytes (width m).val v d = some bs ∧
          ∃ rest, ls.mapM (fun (v, d) => levelBytes (width m).val v d) = some rest ∧ bs :: rest = bytes := by
      simpa [List.mapM_cons, Option.bind_eq_some_iff] using hbytes
    have htotal : totalDuration ((v, d) :: ls) = d + totalDuration ls := by simp [totalDuration]
    rw [htotal, ← Nat.add_assoc] at hf ⊢
    have hfree : p.traceCapacity ≠ some tr.length := fun hcap => by
      have := hroom _ hcap
      simp at this
    obtain ⟨u, hlevel, hu⟩ := h.execAll_levelBytes hm hbs hfree (by omega)
    rw [List.flatten_cons, List.map_append, execAll_append hlevel, levelTrace, List.append_cons]
    refine ih hu hrest (fun cap hcap => ?_) hf
    have := hroom cap hcap
    simp only [List.length_append, List.length_cons, List.length_nil] at this ⊢
    omega

end LevelSession

/-- START with a mask that is not zero and no budget opens a session with no record and the cursor at 0 (R192). -/
theorem exec_start_levelSession {m : Word} {s : State} (hd : s.status ≠ .decoding) (hm : m ≠ 0#32) :
    ∃ t, exec (.start m none) s = .next t ∧ LevelSession m s.params [] 0 t := by
  have hexec : exec (.start m none) s = .next (openSession (loadSession m none s)) := if_neg hd
  have hopen : openSession (loadSession m none s) = { loadSession m none s with status := .decoding } := by
    rcases openSession_cases (loadSession m none s) with ⟨hw, _⟩ | ⟨_, hb, _⟩ | ⟨_, _, e⟩
    · exact absurd ((width_eq_zero_iff m).mp hw) hm
    · cases (loadSession_budgetReached m none s).mp hb
    · exact e
  exact ⟨_, hexec.trans (congrArg _ hopen), rfl, rfl, rfl, rfl, rfl, rfl, rfl, rfl, rfl, rfl, rfl, fun h => absurd rfl h⟩

/-- EOS at a word boundary of a session is the normal end (R196). -/
theorem exec_eos_boundary {s : State} (hd : s.status = .decoding) (h0 : s.waCount.val = 0) :
    exec .eos s = .next (finish .eos s) := by
  rw [exec, execEos, if_pos hd, if_pos h0]

/-- Settles O43: the events run START, the bytes of the LEVEL items and EOS; between the items the session is a
`LevelSession`, whose records and cursor are those of the levels so far. -/
theorem levelsRoundTrip : Obligations.LevelsRoundTrip := by
  intro m levels bytes s hd hm hcap htotal hbytes
  obtain ⟨u, hstart, hu⟩ := exec_start_levelSession hd hm
  obtain ⟨t, hlevels, ht⟩ := hu.execAll_levels hm hbytes (by simpa using hcap) (by simpa using htotal)
  rw [List.nil_append, Nat.zero_add] at ht
  have hrun : execAll ((.start m none :: bytes.flatten.map .byte) ++ [.eos]) s = .next (finish .eos t) := by
    rw [List.cons_append, execAll_cons hstart, execAll_append hlevels, execAll_singleton,
      exec_eos_boundary ht.run ht.boundary]
  have hdec : (({ code := 1#3, mask := m } :: bytes.flatten.map byteEvent) ++ [{ code := 3#3 }] : List HostEvent).map
      decodeEvent = ((.start m none :: bytes.flatten.map .byte) ++ [.eos] : List Instr).map .ok := by
    simp only [List.cons_append, List.map_cons, List.map_append, List.map_map, List.map_nil]
    rfl
  exact ⟨_, deliver_eq_of_execAll hdec hrun, rfl, ht.trace, ht.cursor⟩

end Sys2Proof.Machine

/-! PROOFS. The family 40_router.md: the enabled set and the width (R100 to R102), the lane map (R103), the two
placements (R104, R105, R108), the top channel (R106), and the table (R107). -/

namespace Sys2Proof.Machine

/-! ### The enabled set and the width -/

/-- START in any status but DECODING loads the session and opens it (R192). -/
theorem exec_start_not_decoding {s : State} (hd : s.status ≠ .decoding) (m : Word) (B : Option Time) :
    exec (.start m B) s = .next (openSession (loadSession m B s)) := if_neg hd

/-- The rest of START enters ERR_CONFIGURATION for the width 0 alone (R192, R231). -/
theorem openSession_status_configuration_iff (s : State) :
    (openSession s).status = .error .configuration ↔ s.cfgWidth.val = 0 := by
  rcases openSession_cases s with ⟨hw, e⟩ | ⟨hw, _, e⟩ | ⟨hw, _, e⟩ <;> rw [e]
  · simp [raise, hw]
  · simp [hw]
  · simp [hw]

/-- START writes the mask's enabled set and width, and the zero mask is its configuration error (R101, R102). -/
theorem exec_start_config {s : State} (hd : s.status ≠ .decoding) (m : Word) (B : Option Time) :
    ∃ t, exec (.start m B) s = .next t ∧ t.cfgGroups = groups m ∧ t.cfgWidth = width m ∧
      (t.status = .error .configuration ↔ m = 0#32) := by
  obtain ⟨_, _, _, e⟩ := openSession_frame (loadSession m B s)
  refine ⟨_, exec_start_not_decoding hd m B, ?_, ?_, ?_⟩
  · rw [e]; rfl
  · rw [e]; rfl
  · exact (openSession_status_configuration_iff _).trans (width_eq_zero_iff m)

/-- The width is the number of groups in the lane map (R102, R103). -/
theorem width_eq_length_lanes (mask : Word) : (width mask).val = (lanes (groups mask)).length := by
  rw [width_val, length_lanes]

/-- Settles O9: the bits of the enabled set, the width as their count, and START's use of both. -/
theorem groupsAndWidthOfAMask : Obligations.GroupsAndWidthOfAMask := by
  intro mask
  refine ⟨fun g hg => ?_, width_eq_length_lanes mask, Nat.le_of_lt_succ (width mask).isLt, width_eq_zero_iff mask,
    fun s B hd => exec_start_config hd mask B⟩
  rw [getLsbD_groups mask hg, groupEnabled_iff]

/-- The reset state meets the hypothesis of O9's clause about START: a mask of groups 1 and 3 is accepted, and the
zero mask is not. -/
theorem witness_GroupsAndWidthOfAMask :
    (∃ t, exec (.start 0xFF00FF00#32 none) State.reset = .next t ∧ t.cfgGroups = 0b1010#4 ∧ t.cfgWidth = 2 ∧
      (t.status = .error .configuration ↔ 0xFF00FF00#32 = 0#32)) ∧
    ∃ t, exec (.start 0#32 none) State.reset = .next t ∧ t.cfgGroups = 0b0000#4 ∧ t.cfgWidth = 0 ∧
      (t.status = .error .configuration ↔ 0#32 = 0#32) := by
  obtain ⟨_, _, _, _, haccepted⟩ := groupsAndWidthOfAMask 0xFF00FF00#32
  obtain ⟨_, _, _, _, hrejected⟩ := groupsAndWidthOfAMask 0#32
  exact ⟨haccepted State.reset none (by decide), hrejected State.reset none (by decide)⟩

/-! ### The lane map -/

/-- The groups that lanes go to are the enabled ones (R103). -/
theorem exists_lane_eq_some_iff (G : Groups) (g : Nat) : (∃ i, lane G i = some g) ↔ g < 4 ∧ G.getLsbD g = true :=
  List.mem_iff_getElem?.symm.trans (mem_lanes G g)

/-- A later lane goes to a higher group (R103). -/
theorem lane_strictMono {G : Groups} {i j g h : Nat} (hij : i < j) (hg : lane G i = some g) (hh : lane G j = some h) :
    g < h := by
  obtain ⟨hi, rfl⟩ := List.getElem?_eq_some_iff.mp hg
  obtain ⟨hj, rfl⟩ := List.getElem?_eq_some_iff.mp hh
  exact List.pairwise_iff_getElem.mp (lanes_sorted G) i j hi hj hij

/-- Settles O10: the domain, the range and the order of the lane map. -/
theorem laneMapIsAscending : Obligations.LaneMapIsAscending :=
  fun G => ⟨lane_isSome_iff G, exists_lane_eq_some_iff G, fun _ _ _ _ => lane_strictMono⟩

/-! ### The two placements -/

theorem place_compact (G : Groups) (word : Word) : place .compact G word = word := rfl

/-- A word of `n` bytes has no bit in a group at or above `n` (R71). -/
theorem getLsbD_group_of_toNat_lt {n : Nat} {word : Word} (hw : word.toNat < 2 ^ (8 * n)) {g : Nat} (hg : n ≤ g)
    (k : Nat) : word.getLsbD (8 * g + k) = false :=
  getLsbD_of_toNat_lt hw (by omega)

/-- Settles O11: the bits of an enabled and of a disabled group under ROUTED, and the word itself under COMPACT. -/
theorem placementOfAWord : Obligations.PlacementOfAWord := by
  intro G word hw
  refine ⟨fun i g k hl hk => getLsbD_place_routed hl hk word,
    fun g k _ hk hG => getLsbD_place_routed_disabled hG hk word, place_compact G word, fun g k hg _ => ?_⟩
  rw [place_compact, getLsbD_group_of_toNat_lt hw hg]

/-- Where the lanes are the groups 0 to `W-1`, ROUTED gives a word of `W` bytes back: byte by byte, an enabled group
keeps its place, and the others are 0 in the word and in its placement (R108). -/
theorem place_routed_of_lanes_eq_range {G : Groups} {n : Nat} (hl : lanes G = List.range n) {word : Word}
    (hw : word.toNat < 2 ^ (8 * n)) : place .routed G word = word := by
  apply BitVec.eq_of_getLsbD_eq
  intro b _
  have hk : b % 8 < 8 := Nat.mod_lt _ (by decide)
  rw [← Nat.div_add_mod b 8]
  rcases Nat.lt_or_ge (b / 8) n with hg | hg
  · have hlane : lane G (b / 8) = some (b / 8) := by rw [lane, hl, List.getElem?_range hg]
    exact getLsbD_place_routed hlane hk word
  · have hnot : b / 8 ∉ lanes G := by rw [hl, List.mem_range]; omega
    rw [getLsbD_group_of_toNat_lt hw hg]
    exact getLsbD_routeFrom_of_notMem hnot 0 word hk

/-- In the four enabled sets of R108 the lanes are the groups 0 to `W-1`. -/
theorem lanes_of_low_groups :
    ∀ G ∈ [0b0001#4, 0b0011#4, 0b0111#4, 0b1111#4], lanes G = List.range (popcount G) := by decide

/-- Settles O12: the lanes of the four enabled sets are the word's own bytes. -/
theorem placementsAgreeOnLowGroups : Obligations.PlacementsAgreeOnLowGroups :=
  fun G word hG hw => ⟨place_routed_of_lanes_eq_range (lanes_of_low_groups G hG) hw, place_compact G word⟩

/-! ### The top channel and the table -/

/-- Settles O13: the top channel holds the word's flag, which is clear, and the mask cuts off every bit outside it. -/
theorem topChannelReadsZero : Obligations.TopChannelReadsZero := by
  intro p mask word _ hflag
  refine ⟨fun t ht => ?_, ?_⟩
  · rw [BitVec.getLsbD_and, getLsbD_place_topBit ht, ← width_val, hflag, Bool.false_and]
  · rw [BitVec.and_assoc, BitVec.and_not_self]
    exact BitVec.and_zero

/-- Settles O14: the table of R107, row by row. -/
theorem completeRouterTable : Obligations.CompleteRouterTable := by
  unfold Obligations.CompleteRouterTable
  decide

end Sys2Proof.Machine

/-! PROOFS. The family 41_framer.md: one byte through the framer (R120, R121, R194). -/

namespace Sys2Proof.Machine

/-- The bytes received of a word and the one that completes it decode to a row (R70, R76). -/
theorem decode_receivedBytes_isOk (s : State) (b : Byte) :
    ∃ i, decode (.word (wordBytes s.waCount.val s.waAcc ++ [b])) = .ok i := by
  have hlen : (wordBytes s.waCount.val s.waAcc ++ [b]).length = s.waCount.val + 1 := by simp
  rw [decode, decodeWord, hlen]
  exact decodeWordValue_isOk (Nat.le_add_left _ _) s.waCount.isLt _

/-- Settles O20: the byte is kept, or the word it completes decodes to the row that the same step runs. -/
theorem byteIsKeptOrRunsItsWord : Obligations.ByteIsKeptOrRunsItsWord := by
  intro b s hd
  constructor
  · intro hm
    exact ⟨keepByte b s, exec_byte_kept hd hm, keepByte_waCount_val hm, rfl⟩
  · intro hf hc
    obtain ⟨i, hi⟩ := decode_receivedBytes_isOk s b
    exact ⟨i, hi, exec_byte_completes hd hc hf hi, takeByte b s, exec_byte_decoding hd b⟩

end Sys2Proof.Machine

/-! PROOFS. The family 42_decoder.md: the SAMPLE and RUN words (R141 to R143), the boundary check after them (R146),
the bound on passing the budget (R147, R270), and the independence of a session from what came before it (R149). -/

namespace Sys2Proof.Machine

/-! ### The word rows in their session -/

/-- In a session of its width a SAMPLE row is its word through the decoder (R151). -/
theorem exec_sampleRow_session {n : Nat} {row : Word → Instr} {s : State} (hrow : sampleRow n = some row)
    (hd : s.status = .decoding) (hw : s.cfgWidth.val = n) (w : Word) : exec (row w) s = .next (decodeSample w s) := by
  rw [exec_sampleRow hrow, inSessionOfWidth_eq _ hd hw]

/-- In a session of its width a RUN row is its word through the decoder (R151). -/
theorem exec_runRow_session {n : Nat} {row : Word → Instr} {s : State} (hrow : runRow n = some row)
    (hd : s.status = .decoding) (hw : s.cfgWidth.val = n) (c : Word) : exec (row c) s = .next (decodeRun c s) := by
  rw [exec_runRow hrow, inSessionOfWidth_eq _ hd hw]

/-- A SAMPLE word that finds the buffer full raises ERR_CAPACITY (R141, R238). -/
theorem decodeSample_of_full {s : State} (h : s.params.traceCapacity = some s.recCount) (v : Word) :
    decodeSample v s = raise .capacity s := by
  rcases processClass_sample (sampleValue s v) s with ⟨_, e⟩ | ⟨hroom, _⟩
  · exact e
  · exact absurd h ((traceFull_eq_false_iff s).mp hroom)

/-- A RUN word before any SAMPLE word raises ERR_PROTOCOL (R142, R234). -/
theorem decodeRun_of_first {s : State} (hv : s.lastValid = false) (c : Word) : decodeRun c s = raise .protocol s := by
  rcases processClass_run c s with ⟨_, e⟩ | ⟨hset, _⟩ | ⟨hset, _⟩
  · exact e
  all_goals
    rw [hv] at hset
    cases hset

/-- A RUN word that would take the cursor to 2^64 or past it raises ERR_CURSOR_OVERFLOW (R142, R237). -/
theorem decodeRun_of_overflow {s : State} {c : Word} (hv : s.lastValid = true) (ho : 2 ^ 64 ≤ s.cursorAfter c) :
    decodeRun c s = raise .cursorOverflow s := by
  rcases processClass_run c s with ⟨hno, _⟩ | ⟨_, _, e⟩ | ⟨_, hf, _⟩
  · rw [hv] at hno
    cases hno
  · exact e
  · omega

/-- A RUN row with a level set, short of overflow and of the budget and with no cancel pending, advances the cursor
(R142). -/
theorem exec_runRow_advances {n : Nat} {row : Word → Instr} {s : State} {c : Word} (hrow : runRow n = some row)
    (hd : s.status = .decoding) (hw : s.cfgWidth.val = n) (hv : s.lastValid = true) (hc : s.cancelPending = false)
    (hf : s.cursorAfter c < 2 ^ 64) (hB : ∀ B, s.cfgBudget = some B → s.cursorAfter c < B.toNat) :
    exec (row c) s = .next { s with cursor := BitVec.ofNat 64 (s.cursorAfter c) } := by
  have hahead : ({ s with cursor := BitVec.ofNat 64 (s.cursorAfter c) } : State).budgetReached = false := by
    rw [budgetReached_eq_false_iff, toNat_cursorAfter hf]
    exact hB
  rw [exec_runRow_session hrow hd hw, decodeRun_of_fits hv hf]
  exact congrArg Host.Outcome.next (boundaryCheck_eq_self hc hahead)

/-- Settles O15: the buffer is full, or the record is appended and the boundary check finds nothing, since the cursor
did not move. -/
theorem sampleWordAppendsARecord : Obligations.SampleWordAppendsARecord := by
  intro n row w s hrow hd hw
  rw [exec_sampleRow_session hrow hd hw]
  refine ⟨fun hfull => congrArg _ (decodeSample_of_full hfull w), fun hroom hc hB => ?_⟩
  have hahead : s.budgetReached = false := (budgetReached_eq_false_iff s).mpr hB
  rw [decodeSample_of_room hroom]
  exact congrArg Host.Outcome.next (boundaryCheck_eq_self hc hahead)

/-- Settles O16: the three outcomes of RunOp, the last followed by a boundary check that finds nothing. -/
theorem runWordAdvancesTheCursor : Obligations.RunWordAdvancesTheCursor := by
  intro n row c s hrow hd hw
  refine ⟨fun hv => ?_, fun hv ho => ?_, fun hv hf hc hB => exec_runRow_advances hrow hd hw hv hc hf hB⟩
  · rw [exec_runRow_session hrow hd hw, decodeRun_of_first hv]
    rfl
  · rw [exec_runRow_session hrow hd hw, decodeRun_of_overflow hv ho]
    rfl

/-- Settles O17: a word row that takes effect ends in the boundary check, whose three outcomes are those stated. -/
theorem boundaryCheckAfterAWord : Obligations.BoundaryCheckAfterAWord := by
  intro n w s hd hw check v
  have hcheck : ∀ t, boundaryCheck t = check t := by
    intro t
    rcases boundaryCheck_cases t with ⟨hc, e⟩ | ⟨hc, hb, e⟩ | ⟨hc, hb, e⟩
    · simp [e, check, hc, raise]
    · obtain ⟨B, hB, hle⟩ := (budgetReached_iff t).mp hb
      simp [e, check, hc, hB, hle, finish]
    · rw [budgetReached_eq_false_iff] at hb
      cases hB : t.cfgBudget with
      | none => simp [e, check, hc, hB]
      | some B => simp [e, check, hc, hB, hb B hB]
  constructor
  · intro row hrow hroom
    rw [exec_sampleRow_session hrow hd hw, decodeSample_of_room hroom, hcheck]
    rfl
  · intro row hrow hv hf
    rw [exec_runRow_session hrow hd hw, decodeRun_of_fits hv hf, hcheck]
    rfl

/-- Settles O19, by induction on the RUN words: each advances the cursor by its own duration, which leaves the rest of
the sum. -/
theorem consecutiveRunsSum : Obligations.ConsecutiveRunsSum := by
  intro n row cs s hrow hd hw hv hc hsum hB
  induction cs generalizing s with
  | nil => simp [execAll]
  | cons c cs ih =>
    simp only [List.map_cons, List.sum_cons] at hsum hB ⊢
    generalize hrest : (cs.map fun c => c.toNat + 1).sum = rest at hsum hB ih ⊢
    have hafter : s.cursorAfter c = s.cursor.toNat + c.toNat + 1 := rfl
    have hf : s.cursorAfter c < 2 ^ 64 := by omega
    have hstep := exec_runRow_advances hrow hd hw hv hc hf fun B hb => by
      have := hB B hb
      omega
    have htotal : (BitVec.ofNat 64 (s.cursorAfter c)).toNat + rest = s.cursor.toNat + (c.toNat + 1 + rest) := by
      rw [toNat_cursorAfter hf]
      omega
    have hrun := ih { s with cursor := BitVec.ofNat 64 (s.cursorAfter c) } hd hw hv hc (htotal ▸ hsum)
      (htotal ▸ hB)
    rw [execAll_cons hstep, hrun, htotal]

/-! ### Passing the budget -/

/-- The boundary check enters DONE_BUDGET from DECODING by a reached budget alone (R146). -/
theorem boundaryCheck_done_budget {s : State} (h : (boundaryCheck s).status = .done .budget)
    (hd : s.status = .decoding) : s.budgetReached = true ∧ boundaryCheck s = finish .budget s := by
  rcases boundaryCheck_cases s with ⟨_, e⟩ | ⟨_, hb, e⟩ | ⟨_, _, e⟩
  · rw [e] at h
    cases h
  · exact ⟨hb, e⟩
  · rw [e, hd] at h
    cases h

/-- While the budget is ahead only a RUN word that takes effect enters DONE_BUDGET: a SAMPLE word does not move the
cursor (R141, R142, R147). -/
theorem processClass_done_budget {w : WordClass} {s : State} (hd : s.status = .decoding) (hb : s.budgetReached = false)
    (h : (processClass w s).status = .done .budget) :
    ∃ c, w = .run c ∧ s.cursorAfter c < 2 ^ 64 ∧
      ({ s with cursor := BitVec.ofNat 64 (s.cursorAfter c) } : State).budgetReached = true ∧
      processClass w s = finish .budget { s with cursor := BitVec.ofNat 64 (s.cursorAfter c) } := by
  cases w with
  | sample v =>
    rcases processClass_sample v s with ⟨_, e⟩ | ⟨_, e⟩
    · rw [e] at h
      cases h
    · rw [e] at h
      obtain ⟨hreached, _⟩ := boundaryCheck_done_budget h hd
      exact absurd (hb.symm.trans hreached) Bool.false_ne_true
  | run c =>
    rcases processClass_run c s with ⟨_, e⟩ | ⟨_, _, e⟩ | ⟨_, hf, e⟩
    · rw [e] at h
      cases h
    · rw [e] at h
      cases h
    · rw [e] at h ⊢
      exact ⟨c, rfl, hf, boundaryCheck_done_budget h hd⟩

/-- The stored count of a word of `n` bytes has `8n-1` bits (R123). -/
theorem payloadFits_of_classify_run {s : State} {n : Nat} {word c : Word} (h : classify s n word = .run c) :
    PayloadFits n c := by
  unfold classify at h
  split at h <;> cases h
  exact runPayload_fits n word

/-- A byte that ends the session by the budget completes a RUN word, whose count is at most `2^(8W-1)-1`: the cursor
passes the budget, and nothing is done to the records (R147). -/
theorem exec_byte_done_budget {b : Byte} {s t : State} (hd : s.status = .decoding) (hb : s.budgetReached = false)
    (hex : exec (.byte b) s = .next t) (ht : t.status = .done .budget) :
    ∃ c, PayloadFits s.cfgWidth.val c ∧ t.cursor.toNat = s.cursor.toNat + c.toNat + 1 ∧ t.budgetReached = true ∧
      t.cfgBudget = s.cfgBudget ∧ t.trace = s.trace := by
  rw [exec_byte_decoding hd] at hex
  cases hex
  rcases takeByte_cases b s with ⟨_, e⟩ | ⟨_, e⟩ <;> rw [e] at ht ⊢
  · rw [keepByte_status, hd] at ht
    cases ht
  · obtain ⟨c, hclass, hf, hreached, hresult⟩ := processClass_done_budget (s := closeWord s) hd hb ht
    rw [processWord, hresult]
    exact ⟨c, payloadFits_of_classify_run hclass, toNat_cursorAfter hf, hreached, rfl, rfl⟩

/-- Settles O36: the budget was ahead of the cursor, and the last RUN word moved the cursor by one count and one. -/
theorem budgetOvershootIsBounded : Obligations.BudgetOvershootIsBounded := by
  intro b B s t hinv hd hB hex ht
  have hahead := hinv.budgetAhead hd
  obtain ⟨c, hfits, hcursor, hreached, hbudget, htrace⟩ :=
    exec_byte_done_budget hd ((budgetReached_eq_false_iff s).mpr hahead) hex ht
  obtain ⟨B', hB', hle⟩ := (budgetReached_iff t).mp hreached
  obtain rfl : B = B' := Option.some.inj (hB.symm.trans (hbudget.symm.trans hB'))
  have hlt := hahead B hB
  unfold PayloadFits at hfits
  exact ⟨hle, by omega, htrace⟩

/-! ### A session and what came before it -/

/-- What START leaves depends on its operands, the parameters and the queue alone: every other element is set (R149,
R192). -/
theorem openSession_loadSession_eq (m : Word) (B : Option Time) (s : State) :
    openSession (loadSession m B s) =
      openSession (loadSession m B { State.reset with params := s.params, inbox := s.inbox }) := rfl

/-- Delivered events take the place of the queue that stood before (log 1). -/
theorem deliver_setInbox (es q : List HostEvent) (s : State) : deliver es (setInbox q s) = deliver es s := rfl

/-- START and the events after it, from outside DECODING, give what they give from the reset state with the same
parameters (R149, R261). -/
theorem deliver_start {s : State} (hd : s.status ≠ .decoding) (m : Word) (B : Option Time) (es : List HostEvent) :
    deliver ({ code := 1#3, mask := m, budget := B } :: es) s =
      deliver es (openSession (loadSession m B { State.reset with params := s.params })) := by
  rw [deliver_cons rfl (exec_start_not_decoding hd m B), openSession_loadSession_eq, ← deliver_setInbox es [],
    ← openSession_setInbox]
  rfl

/-- Settles O41: both runs are the one from the reset state with the same parameters. -/
theorem sessionsDoNotDependOnThePast : Obligations.SessionsDoNotDependOnThePast := by
  intro m B es s₁ s₂ h₁ h₂ hparams
  rw [deliver_start h₁, deliver_start h₂, hparams]

end Sys2Proof.Machine

/-! PROOFS. The family 43_assembler.md: records enter the buffer at its end and by SAMPLE words alone (R171), and a
terminal status is left by START and RESET alone, which empty the buffer (R175, R241). -/

namespace Sys2Proof.Machine

/-! ### RUN words and the buffer -/

/-- The boundary check leaves the records as they are (R146, R147). -/
@[simp] theorem boundaryCheck_trace (s : State) : (boundaryCheck s).trace = s.trace := by
  obtain ⟨_, _, _, e⟩ := boundaryCheck_frame s
  rw [e]

/-- A RUN word adds no record, whatever its outcome (R142, R171). -/
theorem decodeRun_trace (c : Word) (s : State) : (decodeRun c s).trace = s.trace := by
  unfold decodeRun
  rcases processClass_run c s with ⟨_, e⟩ | ⟨_, _, e⟩ | ⟨_, _, e⟩ <;> rw [e]
  · exact raise_trace s _
  · exact raise_trace s _
  · exact boundaryCheck_trace _

/-- A word with its flag set is a RUN word to the decoder (R122, R125). -/
theorem processWord_of_flag_set {n : Nat} {word : Word} (hf : runFlag n word = true) (s : State) :
    processWord n word s = decodeRun (runPayload n word) s := by
  rw [processWord, classify, if_pos hf, decodeRun]

/-- Settles O32: an effect other than a word's leaves the buffer alone, a word adds one record at most, and the words
that add one are not RUN words. -/
theorem traceIsAppendOnly : Obligations.TraceIsAppendOnly := by
  intro i s t h hreset hstart
  cases exec_next_effect h with
  | word n row w _ isRow run width effect =>
    rcases isRow with hsample | hrun
    · exact effect.trace.imp_right fun ⟨happend, hvalid, hcursor⟩ =>
        ⟨run, happend, hvalid, hcursor, .inl ⟨n, row, w, hsample, rfl⟩⟩
    · rw [exec_runRow_session hrun run width] at h
      cases h
      exact .inl (decodeRun_trace w s)
  | completed b _ run final result effect =>
    cases hflag : runFlag s.cfgWidth.val (completedWord b s) with
    | true =>
      rw [result, processWord_of_flag_set hflag]
      exact .inl (decodeRun_trace _ (closeWord s))
    | false =>
      exact effect.trace.imp_right fun ⟨happend, hvalid, hcursor⟩ =>
        ⟨run, happend, hvalid, hcursor, .inr ⟨b, rfl, final, hflag⟩⟩
  | reset => exact absurd rfl hreset
  | started m B out => exact absurd (hstart m B rfl) out
  | ignored _ _ => exact .inl rfl
  | kept b _ _ => exact .inl rfl
  | ended _ _ => exact .inl rfl
  | truncated _ _ => exact .inl rfl
  | cancelled _ _ => exact .inl rfl
  | latched _ _ => exact .inl rfl

/-! ### The end of the published Trace -/

/-- Outside DECODING every effect but START's and RESET's is to change nothing (R140, R195, R197, R199). -/
theorem InstrEffect.eq_of_not_decoding {s t : State} {i : Instr} (he : InstrEffect s i t) (hd : s.status ≠ .decoding)
    (hreset : i ≠ .reset) (hstart : ∀ m B, i ≠ .start m B) : t = s := by
  cases he with
  | ignored _ _ => rfl
  | reset => exact absurd rfl hreset
  | started m B _ => exact absurd rfl (hstart m B)
  | word _ _ _ _ _ run _ _ => exact absurd run hd
  | kept _ run _ => exact absurd run hd
  | completed _ _ run _ _ _ => exact absurd run hd
  | ended run _ => exact absurd run hd
  | truncated run _ => exact absurd run hd
  | cancelled run _ => exact absurd run hd
  | latched run _ => exact absurd run hd

/-- START begins with an empty buffer at time 0; its own configuration error finds the cursor there (R192, R236). -/
theorem openSession_loadSession_empty (m : Word) (B : Option Time) (s : State) :
    (openSession (loadSession m B s)).trace = [] ∧ (openSession (loadSession m B s)).errCursor = 0#64 ∧
      (openSession (loadSession m B s)).cursor = 0#64 := by
  rcases openSession_cases (loadSession m B s) with ⟨_, e⟩ | ⟨_, _, e⟩ | ⟨_, _, e⟩ <;> rw [e] <;> exact ⟨rfl, rfl, rfl⟩

/-- Settles O33: a terminal status is not DECODING, so only START and RESET act, and both begin with an empty buffer. -/
theorem terminalStatusIsKept : Obligations.TerminalStatusIsKept := by
  intro i s t hterminal h
  have hd : s.status ≠ .decoding := by
    rcases hterminal with ⟨d, e⟩ | ⟨x, e⟩ <;> simp [e]
  refine ⟨(exec_next_effect h).eq_of_not_decoding hd, ?_⟩
  rintro (rfl | ⟨m, B, rfl⟩)
  · cases h
    exact ⟨rfl, rfl, rfl⟩
  · rw [exec_start_not_decoding hd] at h
    cases h
    exact openSession_loadSession_empty m B s

end Sys2Proof.Machine

/-! PROOFS. The family 44_control.md: what each host event does in DECODING and outside it (R190 to R199), the step
that takes an event or waits for one (R203, R249), the phase graph (R201), and the readouts (R205). -/

namespace Sys2Proof.Machine

/-! ### RESET -/

/-- RESET restores every element and keeps the two carriers (R191, log 1, log 4). -/
theorem exec_reset (s : State) : exec .reset s = .next { State.reset with params := s.params, inbox := s.inbox } := rfl

/-- Settles O2: the table of R36 is read off the state that RESET answers. -/
theorem resetEventRestoresEveryElement : Obligations.ResetEventRestoresEveryElement :=
  fun s => ⟨_, exec_reset s, rfl, rfl, rfl, rfl, rfl, rfl, rfl, rfl, rfl, rfl, rfl, rfl, rfl, rfl, rfl⟩

/-! ### START -/

/-- START with the zero mask ends in the configuration error (R192, R231). -/
theorem openSession_loadSession_zeroMask (B : Option Time) (s : State) :
    openSession (loadSession 0#32 B s) = raise .configuration (loadSession 0#32 B s) := rfl

/-- START with groups to record and a budget of 0 ends at once (R147, R192). -/
theorem openSession_loadSession_zeroBudget {m : Word} (hm : m ≠ 0#32) (s : State) :
    openSession (loadSession m (some 0#64) s) = { loadSession m (some 0#64) s with status := .done .budget } := by
  rcases openSession_cases (loadSession m (some 0#64) s) with ⟨hw, _⟩ | ⟨_, _, e⟩ | ⟨_, hb, _⟩
  · exact absurd ((width_eq_zero_iff m).mp hw) hm
  · exact e
  · rw [(loadSession_budgetReached m (some 0#64) s).mpr rfl] at hb
    cases hb

/-- START with groups to record and any other budget, or none, begins DECODING (R192). -/
theorem openSession_loadSession_decoding {m : Word} {B : Option Time} (hm : m ≠ 0#32) (hB : B ≠ some 0#64) (s : State) :
    openSession (loadSession m B s) = { loadSession m B s with status := .decoding } := by
  rcases openSession_cases (loadSession m B s) with ⟨hw, _⟩ | ⟨_, hb, _⟩ | ⟨_, _, e⟩
  · exact absurd ((width_eq_zero_iff m).mp hw) hm
  · exact absurd ((loadSession_budgetReached m B s).mp hb) hB
  · exact e

/-- Settles O22: outside DECODING the session is loaded whole, and the mask and the budget say what becomes of it. -/
theorem startOpensASession : Obligations.StartOpensASession := by
  intro m B s hd loaded
  rw [exec_start_not_decoding hd]
  refine ⟨?_, ?_, fun hm hB => ?_⟩
  · rintro rfl
    exact ⟨congrArg _ (openSession_loadSession_zeroMask B s), (width_eq_zero_iff _).mpr rfl,
      (groups_eq_zero_iff _).mpr rfl⟩
  · rintro hm rfl
    exact congrArg _ (openSession_loadSession_zeroBudget hm s)
  · exact congrArg _ (openSession_loadSession_decoding hm hB s)

/-! ### The ignored events -/

/-- START in DECODING is ignored (R193). -/
theorem exec_start_ignored {s : State} (hd : s.status = .decoding) (m : Word) (B : Option Time) :
    exec (.start m B) s = .next s := if_pos hd

/-- BYTE outside DECODING is ignored (R195). -/
theorem exec_byte_ignored {s : State} (hd : s.status ≠ .decoding) (b : Byte) : exec (.byte b) s = .next s := if_neg hd

/-- EOS outside DECODING is ignored (R197). -/
theorem exec_eos_ignored {s : State} (hd : s.status ≠ .decoding) : exec .eos s = .next s := if_neg hd

/-- CANCEL outside DECODING is ignored (R199). -/
theorem exec_cancel_ignored {s : State} (hd : s.status ≠ .decoding) : exec .cancel s = .next s := if_neg hd

/-- Settles O23: each of the four events looks first at whether the block is DECODING. -/
theorem ignoredEventsChangeNothing : Obligations.IgnoredEventsChangeNothing :=
  fun _ => ⟨exec_start_ignored, fun hd => ⟨exec_byte_ignored hd, exec_eos_ignored hd, exec_cancel_ignored hd⟩⟩

/-! ### EOS and CANCEL in DECODING -/

/-- EOS inside a word is a corrupt stream (R196, R233). -/
theorem exec_eos_midWord {s : State} (hd : s.status = .decoding) (hpos : 0 < s.waCount.val) :
    exec .eos s = .next (raise .corruptStream s) := by
  rw [exec, execEos, if_pos hd, if_neg hpos.ne']

/-- CANCEL at a word boundary is observed at once (R198, R235). -/
theorem exec_cancel_boundary {s : State} (hd : s.status = .decoding) (h0 : s.waCount.val = 0) :
    exec .cancel s = .next (raise .cancelled s) := by
  rw [exec, execCancel, if_pos hd, if_pos h0]

/-- CANCEL inside a word waits for its end (R198). -/
theorem exec_cancel_midWord {s : State} (hd : s.status = .decoding) (hpos : 0 < s.waCount.val) :
    exec .cancel s = .next { s with cancelPending := true } := by
  rw [exec, execCancel, if_pos hd, if_neg hpos.ne']

/-- Settles O24: the end at a word boundary, and the error entry inside a word. -/
theorem eosEndsTheSession : Obligations.EosEndsTheSession :=
  fun _ hd => ⟨exec_eos_boundary hd, exec_eos_midWord hd⟩

/-- Settles O25: the error entry at a word boundary, and the latch inside a word. -/
theorem cancelIsObservedOrLatched : Obligations.CancelIsObservedOrLatched :=
  fun _ hd => ⟨exec_cancel_boundary hd, exec_cancel_midWord hd⟩

/-! ### Every event is handled -/

/-- With nothing offered a step waits (R249, log 11). -/
theorem step_of_inbox_nil {s : State} (h : s.inbox = []) : step s = .next s := by
  simp only [step, nextEvent, h]

/-- Settles O27: the step finds no event to take. -/
theorem silentHostKeepsTheState : Obligations.SilentHostKeepsTheState := fun _ => step_of_inbox_nil

/-- Every event is ignored or handled, so it answers a next state from every state (R190). -/
theorem exec_isEvent_next {i : Instr} (hi : isEvent i) (s : State) : ∃ t, exec i s = .next t := by
  rcases instr_cases i with ⟨n, row, w, hr, rfl⟩ | ⟨n, row, w, hr, rfl⟩ | rfl | ⟨m, B, rfl⟩ | ⟨b, rfl⟩ | rfl | rfl
  · exact absurd hi (not_isEvent_of_row (.inl hr) w)
  · exact absurd hi (not_isEvent_of_row (.inr hr) w)
  · exact ⟨_, exec_reset s⟩
  all_goals by_cases hd : s.status = .decoding
  · exact ⟨s, exec_start_ignored hd m B⟩
  · exact ⟨_, exec_start_not_decoding hd m B⟩
  · exact ⟨_, exec_byte_decoding hd b⟩
  · exact ⟨s, exec_byte_ignored hd b⟩
  · exact s.waCount.val.eq_zero_or_pos.elim (fun h0 => ⟨_, exec_eos_boundary hd h0⟩)
      (fun hpos => ⟨_, exec_eos_midWord hd hpos⟩)
  · exact ⟨s, exec_eos_ignored hd⟩
  · exact s.waCount.val.eq_zero_or_pos.elim (fun h0 => ⟨_, exec_cancel_boundary hd h0⟩)
      (fun hpos => ⟨_, exec_cancel_midWord hd hpos⟩)
  · exact ⟨s, exec_cancel_ignored hd⟩

/-- The codes 0 to 4 are the codes of events (R78). -/
theorem decodeEvent_of_code_lt {e : HostEvent} (h : e.code.toNat < 5) : ∃ i, decodeEvent e = .ok i := by
  obtain ⟨c, m, B, b⟩ := e
  have hc : c = 0#3 ∨ c = 1#3 ∨ c = 2#3 ∨ c = 3#3 ∨ c = 4#3 := by
    simp only at h
    bv_omega
  rcases hc with rfl | rfl | rfl | rfl | rfl <;> exact ⟨_, rfl⟩

/-- Settles O28: an event answers a next state, and a step waits or runs the event that the oldest code stands for. -/
theorem everyEventStepCompletes : Obligations.EveryEventStepCompletes := by
  refine ⟨fun i s hi => exec_isEvent_next hi s, fun s hcodes => ?_⟩
  cases hq : s.inbox with
  | nil => exact ⟨s, step_of_inbox_nil hq⟩
  | cons e es =>
    obtain ⟨i, hdec⟩ := decodeEvent_of_code_lt (hcodes e (by simp [hq]))
    rw [step_of_nextEvent (nextEvent_of_inbox_cons hq) hdec]
    exact exec_isEvent_next (isEvent_of_decodeEvent hdec) _

/-! ### The byte that completes a word -/

/-- A word with its flag clear is a SAMPLE word to the decoder (R122, R125). -/
theorem processWord_of_flag_clear {n : Nat} {word : Word} (hf : runFlag n word = false) (s : State) :
    processWord n word s = decodeSample word s := by
  rw [processWord, classify, if_neg (by simp [hf]), decodeSample]

/-- A byte that completes a word with its top bit set runs a RUN word (R122, R151). -/
theorem exec_byte_final_run {b : Byte} {s : State} (hd : s.status = .decoding) (hc : s.partialWordClean)
    (hf : s.lastByteNext) (hflag : b.getLsbD 7 = true) :
    exec (.byte b) s = .next (decodeRun (runCountNext s b) (closeWord s)) := by
  rcases takeByte_cases b s with ⟨hmore, _⟩ | ⟨_, e⟩
  · exact absurd hf hmore.ne
  · rw [exec_byte_decoding hd, e, processWord_of_flag_set ((runFlag_completedWord hc hf).trans hflag),
      runPayload_completedWord]

/-- A byte that completes a word with its top bit clear runs a SAMPLE word (R122, R151). -/
theorem exec_byte_final_sample {b : Byte} {s : State} (hd : s.status = .decoding) (hc : s.partialWordClean)
    (hf : s.lastByteNext) (hflag : b.getLsbD 7 = false) :
    exec (.byte b) s = .next (decodeSample (completedWord b s) (closeWord s)) := by
  rcases takeByte_cases b s with ⟨hmore, _⟩ | ⟨_, e⟩
  · exact absurd hf hmore.ne
  · rw [exec_byte_decoding hd, e, processWord_of_flag_clear ((runFlag_completedWord hc hf).trans hflag)]

/-- A pending cancel is taken at the boundary (R146). -/
theorem boundaryCheck_of_cancel {s : State} (hp : s.cancelPending = true) : boundaryCheck s = raise .cancelled s :=
  if_pos hp

/-- With no cancel pending, a reached budget ends the session at the boundary (R146). -/
theorem boundaryCheck_of_budget {s : State} (hp : s.cancelPending = false) (hb : s.budgetReached = true) :
    boundaryCheck s = finish .budget s := by
  simp [boundaryCheck, hp, hb]

/-- A SAMPLE word that takes effect with a cancel pending ends cancelled (R141, R146). -/
theorem decodeSample_status_of_cancel {s : State} (room : s.params.traceCapacity ≠ some s.recCount)
    (hp : s.cancelPending = true) (v : Word) : (decodeSample v s).status = .error .cancelled := by
  simp [decodeSample_of_room room, boundaryCheck_of_cancel, hp]

/-- A SAMPLE word that takes effect leaves the status with no cancel pending and the budget ahead: it does not move the
cursor (R141, R146). -/
theorem decodeSample_status_of_ahead {s : State} (room : s.params.traceCapacity ≠ some s.recCount)
    (hp : s.cancelPending = false) (hb : s.budgetReached = false) (v : Word) :
    (decodeSample v s).status = s.status := by
  rw [decodeSample_of_room room, boundaryCheck_eq_self]
  exacts [hp, hb]

/-- A RUN word that takes effect with a cancel pending ends cancelled (R142, R146). -/
theorem decodeRun_status_of_cancel {s : State} {c : Word} (hv : s.lastValid = true) (hf : s.cursorAfter c < 2 ^ 64)
    (hp : s.cancelPending = true) : (decodeRun c s).status = .error .cancelled := by
  simp [decodeRun_of_fits hv hf, boundaryCheck_of_cancel, hp]

/-- A RUN word that takes effect with no cancel pending ends by a budget that its cursor reaches (R142, R146, R147). -/
theorem decodeRun_status_of_budget {s : State} {c : Word} {B : Time} (hv : s.lastValid = true)
    (hf : s.cursorAfter c < 2 ^ 64) (hp : s.cancelPending = false) (hB : s.cfgBudget = some B)
    (hle : B.toNat ≤ s.cursorAfter c) : (decodeRun c s).status = .done .budget := by
  rw [decodeRun_of_fits hv hf, boundaryCheck_of_budget, finish_status]
  exacts [hp, (budgetReached_iff _).mpr ⟨B, hB, (toNat_cursorAfter hf).symm ▸ hle⟩]

/-! ### The phase graph -/

/-- The first half of R201: a row of the phase graph whose conditions hold gives its status. -/
theorem PhaseChange.exec_status {s : State} {i : Instr} {st : Status} (h : PhaseChange s i st)
    (hc : s.partialWordClean) : ∃ t, exec i s = .next t ∧ t.status = st := by
  cases h with
  | reset => exact ⟨_, exec_reset s, rfl⟩
  | startZeroMask B out => exact ⟨_, exec_start_not_decoding out _ B, rfl⟩
  | startZeroBudget m out mask =>
    exact ⟨_, exec_start_not_decoding out m _, by rw [openSession_loadSession_zeroBudget mask]⟩
  | startSession m B out mask budget =>
    exact ⟨_, exec_start_not_decoding out m B, by rw [openSession_loadSession_decoding mask budget]⟩
  | traceFull b run final flag full =>
    exact ⟨_, exec_byte_final_sample run hc final flag,
      congrArg State.status (decodeSample_of_full (s := closeWord s) full _)⟩
  | runFirst b run final flag unset =>
    exact ⟨_, exec_byte_final_run run hc final flag,
      congrArg State.status (decodeRun_of_first (s := closeWord s) unset _)⟩
  | runOverflows b run final flag valid overflow =>
    exact ⟨_, exec_byte_final_run run hc final flag,
      congrArg State.status (decodeRun_of_overflow (s := closeWord s) valid overflow)⟩
  | cancelAfterSample b run final flag room pending =>
    exact ⟨_, exec_byte_final_sample run hc final flag,
      decodeSample_status_of_cancel (s := closeWord s) room pending _⟩
  | cancelAfterRun b run final flag effect pending =>
    obtain ⟨valid, fits⟩ := effect
    exact ⟨_, exec_byte_final_run run hc final flag,
      decodeRun_status_of_cancel (s := closeWord s) valid fits pending⟩
  | budgetReached b B run final flag effect pending limit reached =>
    obtain ⟨valid, fits⟩ := effect
    exact ⟨_, exec_byte_final_run run hc final flag,
      decodeRun_status_of_budget (s := closeWord s) valid fits pending limit reached⟩
  | eosAtBoundary run boundary => exact ⟨_, exec_eos_boundary run boundary, rfl⟩
  | eosMidWord run inside => exact ⟨_, exec_eos_midWord run inside, rfl⟩
  | cancelAtBoundary run boundary => exact ⟨_, exec_cancel_boundary run boundary, rfl⟩

/-- START outside DECODING takes one of its three rows (R192, R201). -/
theorem phaseChange_of_start {s : State} (out : s.status ≠ .decoding) (m : Word) (B : Option Time) :
    PhaseChange s (.start m B) (openSession (loadSession m B s)).status := by
  by_cases hm : m = 0#32
  · subst hm
    exact .startZeroMask B out
  · by_cases hB : B = some 0#64
    · subst hB
      rw [openSession_loadSession_zeroBudget hm]
      exact .startZeroBudget m out hm
    · rw [openSession_loadSession_decoding hm hB]
      exact .startSession m B out hm hB

/-- A RUN word that changes the status does it by a row of the phase graph (R142, R146, R201). -/
theorem phaseChange_of_run {s : State} {b : Byte} (run : s.status = .decoding) (final : s.lastByteNext)
    (flag : b.getLsbD 7 = true) (hne : (decodeRun (runCountNext s b) (closeWord s)).status ≠ s.status) :
    PhaseChange s (.byte b) (decodeRun (runCountNext s b) (closeWord s)).status := by
  unfold decodeRun at hne ⊢
  rcases processClass_run (runCountNext s b) (closeWord s) with ⟨hv, e⟩ | ⟨hv, ho, e⟩ | ⟨hv, hfits, e⟩ <;>
    rw [e] at hne ⊢
  · exact .runFirst b run final flag hv
  · exact .runOverflows b run final flag hv ho
  · rcases boundaryCheck_cases { closeWord s with
        cursor := BitVec.ofNat 64 ((closeWord s).cursorAfter (runCountNext s b)) } with
      ⟨hp, e⟩ | ⟨hp, hb, e⟩ | ⟨_, _, e⟩ <;> rw [e] at hne ⊢
    · exact .cancelAfterRun b run final flag ⟨hv, hfits⟩ hp
    · obtain ⟨B, limit, reached⟩ := (budgetReached_iff _).mp hb
      rw [toNat_cursorAfter hfits] at reached
      exact .budgetReached b B run final flag ⟨hv, hfits⟩ hp limit reached
    · exact absurd rfl hne

/-- A SAMPLE word that changes the status does it by a row of the phase graph: it leaves the cursor, so it never
reaches a budget that is still ahead (R141, R146, R201). -/
theorem phaseChange_of_sample {s : State} {b : Byte} {word : Word} (run : s.status = .decoding) (final : s.lastByteNext)
    (flag : b.getLsbD 7 = false) (ahead : s.budgetReached = false)
    (hne : (decodeSample word (closeWord s)).status ≠ s.status) :
    PhaseChange s (.byte b) (decodeSample word (closeWord s)).status := by
  by_cases full : s.params.traceCapacity = some s.recCount
  · rw [decodeSample_of_full (s := closeWord s) full]
    exact .traceFull b run final flag full
  · cases hp : s.cancelPending with
    | true =>
      rw [decodeSample_status_of_cancel (s := closeWord s) full hp]
      exact .cancelAfterSample b run final flag full hp
    | false => exact absurd (decodeSample_status_of_ahead (s := closeWord s) full hp ahead word) hne

/-- A byte that completes a word and changes the status does it by a row of the phase graph (R194, R201). -/
theorem phaseChange_of_finalByte {s t : State} {b : Byte} (h : BlockInv s) (run : s.status = .decoding)
    (final : s.lastByteNext) (hex : exec (.byte b) s = .next t) (hne : t.status ≠ s.status) :
    PhaseChange s (.byte b) t.status := by
  cases flag : b.getLsbD 7 with
  | true =>
    rw [exec_byte_final_run run h.partialClean final flag] at hex
    cases hex
    exact phaseChange_of_run run final flag hne
  | false =>
    rw [exec_byte_final_sample run h.partialClean final flag] at hex
    cases hex
    exact phaseChange_of_sample run final flag ((budgetReached_eq_false_iff s).mpr (h.budgetAhead run)) hne

/-- The second half of R201: an event that changes the status does it by a row of the phase graph. -/
theorem phaseChange_of_exec {s t : State} {i : Instr} (h : BlockInv s) (hi : isEvent i) (hex : exec i s = .next t)
    (hne : t.status ≠ s.status) : PhaseChange s i t.status := by
  cases exec_next_effect hex with
  | ignored _ _ => exact absurd rfl hne
  | word n row w _ isRow _ _ _ => exact absurd hi (not_isEvent_of_row isRow w)
  | reset => exact .reset
  | started m B out => exact phaseChange_of_start out m B
  | kept b _ _ => exact absurd (keepByte_status s b) hne
  | completed b _ run final _ _ =>
    obtain ⟨_, hlt⟩ := h.session run
    exact phaseChange_of_finalByte h run (Nat.le_antisymm hlt final) hex hne
  | ended run boundary => exact .eosAtBoundary run boundary
  | truncated run inside => exact .eosMidWord run inside
  | cancelled run boundary => exact .cancelAtBoundary run boundary
  | latched _ _ => exact absurd rfl hne

/-- Settles O30: each row of the phase graph is what exec does under its conditions, and every effect of an event keeps
the status or is one of the rows. -/
theorem statusFollowsThePhaseGraph : Obligations.StatusFollowsThePhaseGraph := by
  intro i s t h hi hex
  refine ⟨fun st hrow => ?_, phaseChange_of_exec h hi hex⟩
  obtain ⟨u, hu, hst⟩ := hrow.exec_status h.partialClean
  cases hex.symm.trans hu
  exact hst

/-! ### The readouts -/

/-- The readout of a record is the read of the Trace (R54, R205). -/
theorem readout_record (i : Nat) (s : State) : readout (.record i) s = (traceRead i s).map .record := rfl

/-- The number of records is read of a published Trace (R205). -/
theorem readout_recCount_of_valid {s : State} (hv : s.traceValid = true) :
    readout .recCount s = .ok (.records s.recCount) := if_pos hv

/-- The number of records is refused while no Trace is published (R205). -/
theorem readout_recCount_of_not_valid {s : State} (hv : ¬ s.traceValid = true) :
    readout .recCount s = .error .traceNotPublished := if_neg hv

/-- Settles O47: the elements by definition; the record count and the records by whether the Trace is published, and
the records by their index. -/
theorem readoutsAreTheTable : Obligations.ReadoutsAreTheTable := by
  intro s
  refine ⟨rfl, rfl, rfl, rfl, rfl, rfl, rfl, rfl, rfl, rfl, rfl, fun hv => ?_, fun hv => ?_⟩
  · refine ⟨readout_recCount_of_valid hv, fun i r hr => ?_, fun i hi => ⟨.noSuchRecord i, ?_⟩⟩
    · rw [readout_record, traceRead_of_getElem? hv hr]
      rfl
    · rw [readout_record, traceRead_of_recCount_le hv hi]
      rfl
  · rw [← Bool.not_eq_true] at hv
    refine ⟨⟨_, readout_recCount_of_not_valid hv⟩, fun i => ⟨.traceNotPublished, ?_⟩⟩
    rw [readout_record, traceRead_of_not_valid hv]
    rfl

end Sys2Proof.Machine

/-! PROOFS. The family 60_exceptions.md: entering an error (R236), the error of a session's first word (R234), and the
status codes (R239). -/

namespace Sys2Proof.Machine

/-! ### Entering an error -/

/-- From DECODING the boundary check enters an error by `raise` alone (R146, R236). -/
theorem boundaryCheck_enters_error {s : State} {e : ErrorStatus} (hd : s.status = .decoding)
    (ht : (boundaryCheck s).status = .error e) : ∃ u, boundaryCheck s = raise e u := by
  rcases boundaryCheck_cases s with ⟨_, h⟩ | ⟨_, _, h⟩ | ⟨_, _, h⟩ <;> rw [h] at ht ⊢
  · cases ht
    exact ⟨s, rfl⟩
  · cases ht
  · rw [hd] at ht
    cases ht

/-- From DECODING a word enters an error by `raise` alone, in its operation or at the boundary after it (R151, R236). -/
theorem WordEffect.enters_error {s t : State} {e : ErrorStatus} (he : WordEffect s t) (hd : s.status = .decoding)
    (ht : t.status = .error e) : ∃ u, t = raise e u := by
  cases he with
  | full _ => cases ht; exact ⟨s, rfl⟩
  | first _ => cases ht; exact ⟨s, rfl⟩
  | overflow _ => cases ht; exact ⟨s, rfl⟩
  | sampled _ _ => exact boundaryCheck_enters_error hd ht
  | advanced _ _ _ => exact boundaryCheck_enters_error hd ht

/-- START enters an error by `raise` alone (R192, R236). -/
theorem openSession_enters_error {s : State} {e : ErrorStatus} (ht : (openSession s).status = .error e) :
    ∃ u, openSession s = raise e u := by
  rcases openSession_cases s with ⟨_, h⟩ | ⟨_, _, h⟩ | ⟨_, _, h⟩ <;> rw [h] at ht ⊢
  · cases ht
    exact ⟨s, rfl⟩
  · cases ht
  · cases ht

/-- Every effect that enters an error status does it by `raise` (R236). -/
theorem InstrEffect.enters_error {s t : State} {i : Instr} {e : ErrorStatus} (he : InstrEffect s i t)
    (ht : t.status = .error e) (hs : s.status ≠ .error e) : ∃ u, t = raise e u := by
  cases he with
  | ignored _ _ => exact absurd ht hs
  | word _ _ _ _ _ run _ effect => exact effect.enters_error run ht
  | reset => cases ht
  | started _ _ _ => exact openSession_enters_error ht
  | kept b _ _ => exact absurd ht hs
  | completed b _ run _ _ effect => exact effect.enters_error run ht
  | ended _ _ => cases ht
  | truncated _ _ => cases ht; exact ⟨s, rfl⟩
  | cancelled _ _ => cases ht; exact ⟨s, rfl⟩
  | latched _ _ => exact absurd ht hs

/-- Settles O34: `raise` is the one way into an error, and it records the cursor and clears the pending cancel. -/
theorem errorEntryRecordsTheCursor : Obligations.ErrorEntryRecordsTheCursor := by
  refine ⟨fun e s => rfl, fun i s t e hex ht hs => ?_⟩
  obtain ⟨u, rfl⟩ := (exec_next_effect hex).enters_error ht hs
  exact ⟨rfl, rfl⟩

/-! ### The error of the first word -/

/-- The phase graph enters ERR_PROTOCOL at the final byte of a RUN word with no level set alone (R201, R234). -/
theorem PhaseChange.protocol {s : State} {i : Instr} (h : PhaseChange s i (.error .protocol)) :
    ∃ b, i = .byte b ∧ s.status = .decoding ∧ s.lastByteNext ∧ b.getLsbD 7 = true ∧ s.lastValid = false := by
  cases h with
  | runFirst b run final flag unset => exact ⟨b, rfl, run, final, flag, unset⟩

/-- The final byte of a RUN word with no level set raises ERR_PROTOCOL at the boundary after that word (R142, R234). -/
theorem exec_byte_runFirst {b : Byte} {s : State} (hd : s.status = .decoding) (hc : s.partialWordClean)
    (hf : s.lastByteNext) (hflag : b.getLsbD 7 = true) (hv : s.lastValid = false) :
    exec (.byte b) s = .next (raise .protocol (closeWord s)) := by
  rw [exec_byte_final_run hd hc hf hflag, decodeRun_of_first (s := closeWord s) hv]

/-- Before the first SAMPLE word the buffer is empty (R37 item 5). -/
theorem BlockInv.trace_eq_nil {s : State} (h : BlockInv s) (hv : s.lastValid = false) : s.trace = [] := by
  have hcount : ¬ 0 < s.recCount := by simp [← h.tagMatchesTrace, hv]
  exact List.eq_nil_of_length_eq_zero (Nat.eq_zero_of_not_pos hcount)

/-- Once the final byte of a session's first word is counted, the bytes consumed are those of that word (R234). -/
theorem BlockInv.bytesConsumed_closeWord_first {s : State} (h : BlockInv s) (hd : s.status = .decoding)
    (hv : s.lastValid = false) (hf : s.lastByteNext) : (closeWord s).bytesConsumed.toNat = s.cfgWidth.val := by
  have hbytes := h.firstWord hd hv
  have hlast : s.waCount.val + 1 = s.cfgWidth.val := hf
  have hlt := s.waCount.isLt
  rw [closeWord_bytesConsumed]
  bv_omega

/-- Settles O35: ERR_PROTOCOL is entered by the final byte of a RUN word with no level set; the invariant says what
holds before the first SAMPLE word. -/
theorem protocolErrorIsTheFirstWord : Obligations.ProtocolErrorIsTheFirstWord := by
  intro i s t h hi hex hs ht
  have hrow : PhaseChange s i (.error .protocol) := ht ▸ phaseChange_of_exec h hi hex (ht ▸ hs.symm)
  obtain ⟨b, rfl, run, final, flag, unset⟩ := hrow.protocol
  rw [exec_byte_runFirst run h.partialClean final flag unset] at hex
  cases hex
  obtain ⟨-, hcursor⟩ := h.beforeFirst unset
  exact ⟨hcursor, hcursor, h.bytesConsumed_closeWord_first run unset final, h.trace_eq_nil unset⟩

/-! ### The status codes -/

/-- The code of a status stands for that status alone, and no other code for any (R239). -/
theorem Status.ofCode_eq_some_iff (c : BitVec 4) (st : Status) : Status.ofCode c = some st ↔ st.code = c := by
  constructor
  · intro h
    unfold Status.ofCode at h
    split at h <;> cases h <;> rfl
  · rintro rfl
    rcases st with _ | _ | d | e
    case done => cases d <;> rfl
    case error => cases e <;> rfl
    all_goals rfl

/-- The codes in use are 0 to 3 and 8 to 13 (R239). -/
theorem Status.code_range (st : Status) : st.code.toNat ≤ 3 ∨ 8 ≤ st.code.toNat ∧ st.code.toNat ≤ 13 := by
  rcases st with _ | _ | d | e
  case done => cases d <;> decide
  case error => cases e <;> decide
  all_goals decide

/-- Settles O44: the table by definition; the codes are told apart, bit 3 marks the errors, and a code out of the range
in use is the code of no status. -/
theorem statusCodesAreTheTable : Obligations.StatusCodesAreTheTable := by
  refine ⟨rfl, rfl, rfl, rfl, rfl, rfl, rfl, rfl, rfl, rfl,
    fun st => ⟨(Status.ofCode_eq_some_iff _ st).mpr rfl, st.code_bit3_iff⟩, fun c hc => ?_⟩
  rw [Option.eq_none_iff_forall_ne_some]
  intro st hst
  have hcode : st.code = c := (Status.ofCode_eq_some_iff c st).mp hst
  have hrange := st.code_range
  rw [hcode] at hrange
  omega

end Sys2Proof.Machine
